-- ==== Sys2Proof/Word.lean ====
section
/-! DEFINITION. The fixed widths of the block (00_scope R8, 30_encoding R71 R72 R80). -/

namespace Sys2Proof

/-- A byte: every stored or transferred data value (00_scope R8, R9). -/
abbrev Byte := BitVec 8

/-- An operation word, the one format `OPW16` (30_encoding R71). -/
abbrev Word := BitVec 16

/-- The 2-bit mode of a run-length packet (30_encoding R80). -/
abbrev Mode := BitVec 2

/-- The 4-bit unit mask of `CLR` (30_encoding R72). -/
abbrev UnitMask := BitVec 4

end Sys2Proof
end

