-- ==== Sys2Proof/Syntax.lean ====
section
/-! DEFINITION. The ten operations (30_encoding R73), the four units, and assembly lines (30_encoding R90). -/

namespace Sys2Proof

/-- The four independent units of the block (10_state R24). -/
inductive UnitId where
  | frx | ftx | rrx | rtx
deriving DecidableEq, Repr

/-- The mnemonics of the operation map, one per row (30_encoding R73). -/
inductive Mnemonic where
  | nop | frx | rrx | ftxb | ftxd | ftxe | rtxb | rtxd | rtxe | clr
deriving DecidableEq, Repr

/-- An operation with its operands; an operand's type is its field of the word, so none can overflow it
(30_encoding R72, R73). -/
inductive Instr where
  /-- `NOP` (45_control R240). -/
  | nop
  /-- `FRX b`: received byte for the StuffedFramer receiver (41_framer_rx R100). -/
  | frx (b : Byte)
  /-- `RRX b`: received byte for the RunLengthPacketizer receiver (43_rl_rx R170). -/
  | rrx (b : Byte)
  /-- `FTXB b`: begin a frame with command `b` (42_framer_tx R141). -/
  | ftxb (b : Byte)
  /-- `FTXD b`: append a payload byte (42_framer_tx R142). -/
  | ftxd (b : Byte)
  /-- `FTXE`: end the frame (42_framer_tx R143). -/
  | ftxe
  /-- `RTXB m`: begin a packet with mode `m` (44_rl_tx R211). -/
  | rtxb (m : Mode)
  /-- `RTXD b`: append a payload byte (44_rl_tx R212). -/
  | rtxd (b : Byte)
  /-- `RTXE`: end the packet (44_rl_tx R213). -/
  | rtxe
  /-- `CLR t`: clear the selected units (45_control R242). -/
  | clr (t : UnitMask)
deriving DecidableEq, Repr

/-- The row of the operation map an operation belongs to. -/
def Instr.mnemonic : Instr → Mnemonic
  | .nop => .nop
  | .frx _ => .frx
  | .rrx _ => .rrx
  | .ftxb _ => .ftxb
  | .ftxd _ => .ftxd
  | .ftxe => .ftxe
  | .rtxb _ => .rtxb
  | .rtxd _ => .rtxd
  | .rtxe => .rtxe
  | .clr _ => .clr

/-- The names a mode operand may be written by (30_encoding R90). -/
inductive ModeName where
  | normal | rxerr | txerr | userlog
deriving DecidableEq, Repr

/-- The operand of an assembly line as written, before any check that it fits (30_encoding R90). -/
inductive AsmOperand where
  /-- No operand. -/
  | absent
  /-- A number written in hexadecimal, `0xNN`. -/
  | hex (n : Nat)
  /-- A number written in decimal. -/
  | dec (n : Nat)
  /-- A mode by its name. -/
  | mode (name : ModeName)
  /-- A `CLR` mask as a joined list of unit names. -/
  | units (names : List UnitId)
deriving DecidableEq, Repr

/-- An assembly line: a mnemonic and its operand as written (30_encoding R90). -/
structure AsmLine where
  mnemonic : Mnemonic
  operand : AsmOperand
deriving DecidableEq, Repr

/-- The pseudo-operations (30_encoding R91). -/
inductive Pseudo where
  | rst
  | ffeed (bytes : List Byte)
  | rfeed (bytes : List Byte)
  | fsend (command : Byte) (data : List Byte)
  | rsend (mode : Mode) (data : List Byte)
deriving DecidableEq, Repr

end Sys2Proof
end

