-- ==== Sys2Proof/Decode.lean ====
section
/-! DEFINITION. Decoding and encoding of operation words from the one operation map (30_encoding R71-R76). -/

namespace Sys2Proof

/-- The byte operand `b = w[7:0]` (30_encoding R72). -/
def operandB (w : Word) : Byte := w.extractLsb' 0 8

/-- The mode operand `m = w[9:8]` (30_encoding R72). -/
def operandM (w : Word) : Mode := w.extractLsb' 8 2

/-- The unit mask operand `t = w[11:8]` (30_encoding R72). -/
def operandT (w : Word) : UnitMask := w.extractLsb' 8 4

/-- Bits 15:8 of a word, the info of `ILLEGAL_OP` and of `TX_SEQ` (30_encoding R88). -/
def highByte (w : Word) : Byte := w.extractLsb' 8 8

/-- A row of the operation map: it is selected when `w & mask` equals `pattern` (30_encoding R73). -/
structure OpRow where
  mnemonic : Mnemonic
  pattern : Word
  mask : Word
deriving DecidableEq, Repr

/-- The operation map (30_encoding R73). -/
def opRows : List OpRow :=
  [ ⟨.nop,  0x0000, 0xFFFF⟩,
    ⟨.frx,  0x1000, 0xFF00⟩,
    ⟨.rrx,  0x2000, 0xFF00⟩,
    ⟨.ftxb, 0x3000, 0xFF00⟩,
    ⟨.ftxd, 0x4000, 0xFF00⟩,
    ⟨.ftxe, 0x5000, 0xFFFF⟩,
    ⟨.rtxb, 0x6000, 0xFCFF⟩,
    ⟨.rtxd, 0x7000, 0xFF00⟩,
    ⟨.rtxe, 0x8000, 0xFFFF⟩,
    ⟨.clr,  0x9000, 0xF0FF⟩ ]

/-- The row's own test (30_encoding R73). -/
def OpRow.selects (r : OpRow) (w : Word) : Bool := w &&& r.mask == r.pattern

/-- The operation a selected row makes of a word (30_encoding R73, R76). -/
def Mnemonic.instrOf (m : Mnemonic) (w : Word) : Instr :=
  match m with
  | .nop => .nop
  | .frx => .frx (operandB w)
  | .rrx => .rrx (operandB w)
  | .ftxb => .ftxb (operandB w)
  | .ftxd => .ftxd (operandB w)
  | .ftxe => .ftxe
  | .rtxb => .rtxb (operandM w)
  | .rtxd => .rtxd (operandB w)
  | .rtxe => .rtxe
  | .clr => .clr (operandT w)

/-- What a word decodes to: an operation, or `ILLEGAL(w[15:8])` (30_encoding R76). -/
inductive Decoded where
  | op (i : Instr)
  | illegal (info : Byte)
deriving DecidableEq, Repr

/-- Decoding, total on every 16-bit word: the first row that selects the word, else an illegal word
(30_encoding R74, R75, R76). -/
def decode (w : Word) : Decoded :=
  match opRows.find? (fun r => r.selects w) with
  | some r => .op (r.mnemonic.instrOf w)
  | none => .illegal (highByte w)

/-- The row of a mnemonic (30_encoding R73). -/
def Mnemonic.row : Mnemonic → OpRow
  | .nop => ⟨.nop, 0x0000, 0xFFFF⟩
  | .frx => ⟨.frx, 0x1000, 0xFF00⟩
  | .rrx => ⟨.rrx, 0x2000, 0xFF00⟩
  | .ftxb => ⟨.ftxb, 0x3000, 0xFF00⟩
  | .ftxd => ⟨.ftxd, 0x4000, 0xFF00⟩
  | .ftxe => ⟨.ftxe, 0x5000, 0xFFFF⟩
  | .rtxb => ⟨.rtxb, 0x6000, 0xFCFF⟩
  | .rtxd => ⟨.rtxd, 0x7000, 0xFF00⟩
  | .rtxe => ⟨.rtxe, 0x8000, 0xFFFF⟩
  | .clr => ⟨.clr, 0x9000, 0xF0FF⟩

/-- The operand bits of an operation, in the place its row gives them (30_encoding R72, R73). -/
def Instr.operandBits : Instr → Word
  | .nop => 0
  | .frx b => b.zeroExtend 16
  | .rrx b => b.zeroExtend 16
  | .ftxb b => b.zeroExtend 16
  | .ftxd b => b.zeroExtend 16
  | .ftxe => 0
  | .rtxb m => m.zeroExtend 16 <<< 8
  | .rtxd b => b.zeroExtend 16
  | .rtxe => 0
  | .clr t => t.zeroExtend 16 <<< 8

/-- The word of an operation: its row's pattern with the operand in its field, every other bit zero
(30_encoding R73, R74). -/
def encode (i : Instr) : Word := i.mnemonic.row.pattern ||| i.operandBits

/-- The operation the decoder reads from a table word of `nbits` bits: the bits of the word above `nbits` are zero,
and a word is 16 bits (30_encoding R71). -/
def decodeTableWord (nbits w : Nat) : Option Instr :=
  if nbits ≤ 16 then
    match decode (BitVec.ofNat 16 (w % 2 ^ nbits)) with
    | .op i => some i
    | .illegal _ => none
  else none

end Sys2Proof
end

