-- ==== Sys2Proof/Config.lean ====
section
/-! DEFINITION. What the spec leaves to the build, and the free values: opaque constants, so that no proof can rest on
a particular value. -/

namespace Sys2Proof

/-- `MAX_PAYLOAD` less one. The spec gives no value, only the range 1..255 (00_scope R6, 92 D7, 93 U1).
Log entry 1. -/
opaque Config.maxPayloadPred : Fin 255

/-- `MAX_PAYLOAD` of the block that `State.reset` describes: some number of 1..255 (00_scope R6). Log entry 1. -/
def Config.maxPayload : Fin 256 := Config.maxPayloadPred.succ

/-- The byte a unit's buffer holds at an index nothing has written since the `n`-th reset
(93 U2: any value, never read from a state that meets the invariants). Log entry 2. -/
opaque Config.unwritten : UnitId → (n : Nat) → (index : Nat) → Byte

/-- How many of its output values an operation had emitted when the `n`-th reset cut it short
(70_reset R294, 93 U3: any prefix). Log entry 4. -/
opaque Config.cutLength : (n : Nat) → Nat

end Sys2Proof
end

