-- ==== Sys2Proof/Machine/State.lean ====
section
/-! DEFINITION. The state as plain data: the four unit records (10_state R24-R33), the traces of the five output ports
(30_encoding R85), what the host does next (30_encoding R70, 70_reset R290), the build parameter (00_scope R6), and
the state after reset. -/

namespace Sys2Proof.Machine

/-- A unit's buffer: the cells written since reset, by index, strictly rising (20_memory R50).
An index that is not listed holds an unspecified byte (93 U2, log entry 2). -/
abbrev Memory := List Host.Cell

/-- The phase of `frx` (10_state R25). Log entry 9 for this and the other enumerated types. -/
inductive FrxPhase where
  /-- `AwaitingFlag`: scanning for the flag byte. -/
  | af
  /-- `AwaitingCommand`: the next byte is the command. -/
  | ac
  /-- `AwaitingLength`: the next byte is the declared stuffed length. -/
  | al
  /-- `AccumulatingPayload`: bytes are stored until `fill` reaches `len`. -/
  | ap
deriving DecidableEq, Repr

/-- The phase of `rrx` (10_state R26). -/
inductive RrxPhase where
  /-- Not inside a started packet. -/
  | idle
  /-- A boundary has been seen; the next non-zero byte is the length/mode byte. -/
  | len
  /-- Body bytes are stored until `fill` reaches `len`. -/
  | body
deriving DecidableEq, Repr

/-- The StuffedFramer receiver (10_state R30). -/
structure Frx where
  phase : FrxPhase
  cmd : Byte
  len : BitVec 8
  fill : BitVec 8
  buf : Memory
deriving DecidableEq, Repr

/-- The StuffedFramer transmitter (10_state R31). -/
structure Ftx where
  active : Bool
  cmd : Byte
  n : BitVec 8
  /-- The spec's `over` (a keyword of Lean's library). -/
  overflowed : Bool
  buf : Memory
deriving DecidableEq, Repr

/-- The RunLengthPacketizer receiver (10_state R32). -/
structure Rrx where
  phase : RrxPhase
  mode : Mode
  len : BitVec 6
  fill : BitVec 6
  buf : Memory
deriving DecidableEq, Repr

/-- The RunLengthPacketizer transmitter (10_state R33). -/
structure Rtx where
  active : Bool
  mode : Mode
  n : BitVec 6
  /-- The spec's `over` (a keyword of Lean's library). -/
  overflowed : Bool
  buf : Memory
deriving DecidableEq, Repr

/-- A value on `DLV` (30_encoding R86). The payload is a copy (20_memory R64). -/
inductive Delivery where
  | frFrame (cmd : Byte) (payload : List Byte)
  | rlPacket (mode : Mode) (payload : List Byte)
deriving DecidableEq, Repr

/-- The diagnostic tags (30_encoding R88); the codes 0x0 and 0xD to 0xF are never emitted and have no name. -/
inductive DiagTag where
  | frGarbage | frOverflow | frIllegalFlag | frBadEscape | frCapacity
  | rlUnexpected | rlIncomplete | rlBadLength | rlBadRun | rlCapacity
  | txSeq | illegalOp
deriving DecidableEq, Repr

/-- A value on `DIAG`: a tag and one byte of information (30_encoding R87). -/
structure Diag where
  tag : DiagTag
  info : Byte
deriving DecidableEq, Repr

/-- Which transmitter a result is from (30_encoding R89). -/
inductive TxUnit where
  | fr | rl
deriving DecidableEq, Repr

/-- The result codes (30_encoding R89); the codes 5 to 7 are never emitted and have no name. -/
inductive ResCode where
  | ok | empty | tooLong | stuffedTooLong | notBegun
deriving DecidableEq, Repr

/-- A value on `RES` (30_encoding R89). -/
structure Res where
  unit : TxUnit
  code : ResCode
deriving DecidableEq, Repr

/-- One value on one output port, as an operation emits it (00_scope R12, `emit(P, v)`). -/
inductive Emission where
  | fw (b : Byte)
  | rw (b : Byte)
  | dlv (d : Delivery)
  | diag (e : Diag)
  | res (r : Res)
deriving DecidableEq, Repr

/-- The traces of the five output ports, each in its own order; no order across ports is kept
(30_encoding R85, 20_memory R59). Log entry 8. -/
structure Ports where
  fw : List Byte
  rw : List Byte
  dlv : List Delivery
  diag : List Diag
  res : List Res
deriving DecidableEq, Repr

/-- What the host does to the block next. Log entry 3. -/
inductive InputEvent where
  /-- Offers a word, which is executed to completion (30_encoding R70). -/
  | word (w : Word)
  /-- Asserts the reset input between operations (70_reset R290). -/
  | reset
  /-- Offers a word and asserts the reset input during its execution (70_reset R294). -/
  | resetDuring (w : Word)
deriving DecidableEq, Repr

/-- The block, its build parameter, its ports and the host's next moves. -/
structure State where
  /-- `MAX_PAYLOAD`, fixed when the block is built; no operation changes it (00_scope R6, 10_state R23). -/
  maxPayload : Fin 256
  frx : Frx
  ftx : Ftx
  rrx : Rrx
  rtx : Rtx
  ports : Ports
  /-- What the host does next, first event first. -/
  input : List InputEvent
  /-- The index of the next operation in the input sequence (10_state R21). -/
  opIndex : Nat
  /-- The model's own count of resets, which selects the free values. Log entry 4. -/
  resets : Nat
deriving DecidableEq, Repr

/-- Why the model stops. The block itself never traps (60_exceptions R260). -/
inductive Fault where
  /-- A write to a unit's buffer at an index the buffer does not have (20_memory R50). Raised by `FRX` in phase AP and
  by `RRX` in phase BODY, through `Memory.store`, and only from a state that breaks 10_state R34 or R36, where the
  spec promises no in-range write (20_memory R51, 93 X6). Safe: the model stops. Log entry 6. -/
  | outsideBuffer (unit : UnitId)
deriving DecidableEq, Repr

/-- Why the model has no meaning for a step. -/
inductive Refusal where
  /-- An instruction with no meaning yet. Raised by no arm: every instruction has its meaning. Safe. -/
  | notModelled (mnemonic : String)
deriving DecidableEq, Repr

/-- The reset value of `frx` (10_state R30). -/
def Frx.initial : Frx := { phase := .af, cmd := 0, len := 0, fill := 0, buf := [] }

/-- The reset value of `ftx` (10_state R31). -/
def Ftx.initial : Ftx := { active := false, cmd := 0, n := 0, overflowed := false, buf := [] }

/-- The reset value of `rrx` (10_state R32). -/
def Rrx.initial : Rrx := { phase := .idle, mode := 0, len := 0, fill := 0, buf := [] }

/-- The reset value of `rtx` (10_state R33). -/
def Rtx.initial : Rtx := { active := false, mode := 0, n := 0, overflowed := false, buf := [] }

/-- Five empty traces (70_reset R301). -/
def Ports.empty : Ports := { fw := [], rw := [], dlv := [], diag := [], res := [] }

/-- The state after power-on of a block built with `MAX_PAYLOAD = m`, no word offered (70_reset R292, R293). -/
def State.resetWith (m : Fin 256) : State :=
  { maxPayload := m
    frx := Frx.initial
    ftx := Ftx.initial
    rrx := Rrx.initial
    rtx := Rtx.initial
    ports := Ports.empty
    input := []
    opIndex := 0
    resets := 0 }

/-- The state after power-on (70_reset R292, R293), for the build's own `MAX_PAYLOAD` (log entry 1). -/
def State.reset : State := State.resetWith Config.maxPayload

end Sys2Proof.Machine
end

