-- ==== Sys2Proof/Machine/Ops.lean ====
section
/-! DEFINITION. The named operations over buffers, units and ports: buffer cells (20_memory R50-R57), the clear
functions (10_state R38), emission (00_scope R12), the recovery action that stands where a processor would have trap
entry (60_exceptions R262), and the reset input (70_reset R291). -/

namespace Sys2Proof.Machine

/-- The byte written at an index since reset, if any. -/
def Memory.find (i : Nat) : Memory → Option Byte
  | [] => none
  | (a, v) :: m => if a = i then some v else Memory.find i m

/-- Reads one byte of a buffer (00_scope R11); `free` gives the bytes nothing has written (93 U2, log entry 2). -/
def Memory.read (free : Nat → Byte) (m : Memory) (i : Nat) : Byte := (m.find i).getD (free i)

/-- Writes one cell, keeping the indices strictly rising. -/
def Memory.put (i : Nat) (b : Byte) : Memory → Memory
  | [] => [(i, b)]
  | (a, v) :: m =>
    if i < a then (i, b) :: (a, v) :: m
    else if i = a then (i, b) :: m
    else (a, v) :: Memory.put i b m

/-- Writes one byte of the buffer of a unit, which has `depth` bytes (20_memory R50, R51). Log entry 6. -/
def Memory.store (unit : UnitId) (depth : Nat) (m : Memory) (i : Nat) (b : Byte) : Except Fault Memory :=
  if i < depth then .ok (m.put i b) else .error (.outsideBuffer unit)

/-- `MemRead(buf, i, n)`: the sequence of the `n` bytes from index `i` (00_scope R11). -/
def Memory.readSeq (free : Nat → Byte) (m : Memory) (i n : Nat) : List Byte :=
  (List.range n).map (fun j => m.read free (i + j))

/-- `MemWrite(buf, i, n, s)` with `n = len(s)` (00_scope R11). -/
def Memory.writeSeq (m : Memory) (i : Nat) : List Byte → Memory
  | [] => m
  | b :: s => Memory.writeSeq (m.put i b) (i + 1) s

/-- The indices are strictly rising from `lo` and lie below `depth`. -/
def Memory.wfFrom (depth lo : Nat) : Memory → Bool
  | [] => true
  | (a, _) :: m => decide (lo ≤ a) && decide (a < depth) && Memory.wfFrom depth (a + 1) m

/-- The canonical form of a buffer of `depth` bytes: cells inside it, indices strictly rising. -/
def Memory.wf (depth : Nat) (m : Memory) : Bool := Memory.wfFrom depth 0 m

/-- The depth in bytes of `rrx.buf` (20_memory R50). -/
def rrxDepth : Nat := 63

/-- The depth in bytes of `rtx.buf`, the largest payload (20_memory R50, 44_rl_tx R212). -/
def rtxDepth : Nat := 62

/-- `frx_clear()` (10_state R38): no clear writes a buffer. -/
def Frx.clear (u : Frx) : Frx := { u with phase := .af, cmd := 0, len := 0, fill := 0 }

/-- `ftx_clear()` (10_state R38). -/
def Ftx.clear (u : Ftx) : Ftx := { u with active := false, cmd := 0, n := 0, overflowed := false }

/-- `rrx_clear()` (10_state R38). -/
def Rrx.clear (u : Rrx) : Rrx := { u with phase := .idle, mode := 0, len := 0, fill := 0 }

/-- `rtx_clear()` (10_state R38). -/
def Rtx.clear (u : Rtx) : Rtx := { u with active := false, mode := 0, n := 0, overflowed := false }

/-- `diag(tag, info)` (00_scope R12). -/
def diag (tag : DiagTag) (info : Byte) : Emission := .diag ⟨tag, info⟩

/-- The recovery action of `frx`: one diagnostic, and the unit's partial frame discarded by its clear function
(60_exceptions R262). -/
def Frx.recover (tag : DiagTag) (info : Byte) (u : Frx) : Frx × List Emission := (u.clear, [diag tag info])

/-- The recovery action of `rrx` (60_exceptions R262). -/
def Rrx.recover (tag : DiagTag) (info : Byte) (u : Rrx) : Rrx × List Emission := (u.clear, [diag tag info])

/-- `emit(P, v)`: appends one value to the trace of its port (00_scope R12, 30_encoding R85). -/
def Ports.emit (p : Ports) : Emission → Ports
  | .fw b => { p with fw := p.fw ++ [b] }
  | .rw b => { p with rw := p.rw ++ [b] }
  | .dlv d => { p with dlv := p.dlv ++ [d] }
  | .diag e => { p with diag := p.diag ++ [e] }
  | .res r => { p with res := p.res ++ [r] }

/-- The byte an emission appends to `FW`, if it does. -/
def Emission.onFw : Emission → Option Byte
  | .fw b => some b
  | _ => none

/-- The byte an emission appends to `RW`, if it does. -/
def Emission.onRw : Emission → Option Byte
  | .rw b => some b
  | _ => none

/-- The delivery an emission appends to `DLV`, if it does. -/
def Emission.onDlv : Emission → Option Delivery
  | .dlv d => some d
  | _ => none

/-- The event an emission appends to `DIAG`, if it does. -/
def Emission.onDiag : Emission → Option Diag
  | .diag e => some e
  | _ => none

/-- The result an emission appends to `RES`, if it does. -/
def Emission.onRes : Emission → Option Res
  | .res r => some r
  | _ => none

/-- Emits values in order (20_memory R59). -/
def Ports.emitAll (p : Ports) (es : List Emission) : Ports := es.foldl Ports.emit p

/-- What the traces `p` have carried beyond the traces `q` they grew from (70_reset R302). -/
def Ports.since (p q : Ports) : Ports :=
  { fw := p.fw.drop q.fw.length
    rw := p.rw.drop q.rw.length
    dlv := p.dlv.drop q.dlv.length
    diag := p.diag.drop q.diag.length
    res := p.res.drop q.res.length }

/-- Writes the record of `frx`. -/
def State.setFrx (s : State) (u : Frx) : State := { s with frx := u }

/-- Writes the record of `ftx`. -/
def State.setFtx (s : State) (u : Ftx) : State := { s with ftx := u }

/-- Writes the record of `rrx`. -/
def State.setRrx (s : State) (u : Rrx) : State := { s with rrx := u }

/-- Writes the record of `rtx`. -/
def State.setRtx (s : State) (u : Rtx) : State := { s with rtx := u }

/-- Emits values on the ports of the block. -/
def State.emitAll (s : State) (es : List Emission) : State := { s with ports := s.ports.emitAll es }

/-- The bytes a unit's buffer holds where nothing has written since reset (93 U2, log entry 2). -/
def State.unwritten (s : State) (unit : UnitId) : Nat → Byte := Config.unwritten unit s.resets

/-- What an operation does: the state it leaves and the values it emits, in emission order (00_scope R16). -/
abbrev Effect := Except Fault (State × List Emission)

/-- Completes an operation: every value it emits is accepted by its port (70_reset R297). -/
def Effect.complete : Effect → Host.Outcome State Fault Refusal
  | .ok (s, es) => .next (s.emitAll es)
  | .error f => .fault f

/-- The reset input: every unit to its reset value, buffer contents unspecified from here on, no output, nothing
retracted from a port (70_reset R291). The operation index stays (log entry 5). -/
def State.assertReset (s : State) : State :=
  { s with
    frx := { s.frx.clear with buf := [] }
    ftx := { s.ftx.clear with buf := [] }
    rrx := { s.rrx.clear with buf := [] }
    rtx := { s.rtx.clear with buf := [] }
    resets := s.resets + 1 }

/-- Reset during an operation: some prefix of the values it would have emitted has been accepted, and the state is the
reset state whatever the operation had written (70_reset R294). Log entry 4. -/
def Effect.cutShort (s : State) : Effect → Host.Outcome State Fault Refusal
  | .ok (_, es) => .next (s.emitAll (es.take (Config.cutLength s.resets))).assertReset
  | .error f => .fault f

/-- The block accepts the word at the head of its input (30_encoding R70): the rest stays, and the operation index
counts it (10_state R21). -/
def State.accept (s : State) (rest : List InputEvent) : State :=
  { s with input := rest, opIndex := s.opIndex + 1 }

end Sys2Proof.Machine
end

