-- ==== Sys2Proof/Machine/Operands.lean ====
section
/-! DEFINITION. How operands and byte fields are used: the unit mask of `CLR` (30_encoding R72, 45_control R241), the
length/mode byte of a packet (20_memory R55, 30_encoding R79), and the info byte of `TX_SEQ` (30_encoding R88). -/

namespace Sys2Proof.Machine

/-- The mask selects the unit: `t[0]` `frx`, `t[1]` `ftx`, `t[2]` `rrx`, `t[3]` `rtx` (45_control R241). -/
def maskSelects (t : UnitMask) : UnitId → Bool
  | .frx => t.getLsbD 0
  | .ftx => t.getLsbD 1
  | .rrx => t.getLsbD 2
  | .rtx => t.getLsbD 3

/-- The mode `h[7:6]` of a length/mode byte (30_encoding R79). -/
def modeField (h : Byte) : Mode := h.extractLsb' 6 2

/-- The declared length `h[5:0]` of a length/mode byte (30_encoding R79). -/
def lengthField (h : Byte) : BitVec 6 := h.extractLsb' 0 6

/-- The length/mode byte `(m << 6) | len` (44_rl_tx R214, R215). -/
def lengthModeByte (m : Mode) (len : Nat) : Byte := (m.zeroExtend 8 <<< 6) ||| BitVec.ofNat 8 len

/-- The info of a `TX_SEQ` event of `RTXB m`: `0x60 | m` (44_rl_tx R211). -/
def rtxbSeqInfo (m : Mode) : Byte := 0x60 ||| m.zeroExtend 8

end Sys2Proof.Machine
end

