-- ==== Sys2Proof/Machine/Control.lean ====
section
/-! DEFINITION. The control operations `NOP` and `CLR`, and illegal words (45_control R240-R244). -/

namespace Sys2Proof.Machine

/-- The effect of `NOP`: none (45_control R240). -/
def nopEffect (s : State) : Effect := .ok (s, [])

/-- Clears the units a mask selects (45_control R242). -/
def State.clearUnits (t : UnitMask) (s : State) : State :=
  { s with
    frx := if maskSelects t .frx then s.frx.clear else s.frx
    ftx := if maskSelects t .ftx then s.ftx.clear else s.ftx
    rrx := if maskSelects t .rrx then s.rrx.clear else s.rrx
    rtx := if maskSelects t .rtx then s.rtx.clear else s.rtx }

/-- The effect of `CLR t`: silent (45_control R242). -/
def clrEffect (t : UnitMask) (s : State) : Effect := .ok (s.clearUnits t, [])

/-- The effect of an illegal word, given its bits 15:8: one `ILLEGAL_OP` event (45_control R244). -/
def illegalEffect (info : Byte) (s : State) : Effect := .ok (s, [diag .illegalOp info])

/-- `NOP` (45_control R240). -/
def execNop (s : State) : Host.Outcome State Fault Refusal := (nopEffect s).complete

/-- `CLR t` (45_control R242). -/
def execClr (t : UnitMask) (s : State) : Host.Outcome State Fault Refusal := (clrEffect t s).complete

/-- An illegal word (45_control R244). -/
def execIllegal (info : Byte) (s : State) : Host.Outcome State Fault Refusal := (illegalEffect info s).complete

end Sys2Proof.Machine
end

