-- ==== Sys2Proof/Machine/Codec.lean ====
section
/-! DEFINITION. The pure functions of the two codecs: stuffing and unstuffing (41_framer_rx R106, 42_framer_tx
R144-R146) and run-length encoding and decoding (43_rl_rx R176 R177, 44_rl_tx R214). -/

namespace Sys2Proof.Machine

/-- The flag byte 0x7E (30_encoding R78). -/
def flagByte : Byte := 0x7E

/-- The escape byte 0x7D (30_encoding R78). -/
def escapeByte : Byte := 0x7D

/-- The escape transform `x XOR 0x20` (30_encoding R78). -/
def escapeXor (b : Byte) : Byte := b ^^^ 0x20

/-- Why a stuffed payload is rejected, with the index of the byte (41_framer_rx R106). -/
inductive UnstuffError where
  | illegalFlag (i : Nat)
  | badEscape (i : Nat)
deriving DecidableEq, Repr

/-- The scan of `unstuff` from index `i` on (41_framer_rx R106). -/
def unstuffFrom (i : Nat) : List Byte → Except UnstuffError (List Byte)
  | [] => .ok []
  | [c] =>
    if c = flagByte then .error (.illegalFlag i)
    else if c = escapeByte then .error (.badEscape i)
    else .ok [c]
  | c :: d :: rest =>
    if c = flagByte then .error (.illegalFlag i)
    else if c = escapeByte then
      if d = flagByte then .error (.illegalFlag (i + 1))
      else (unstuffFrom (i + 2) rest).map (escapeXor d :: ·)
    else (unstuffFrom (i + 1) (d :: rest)).map (c :: ·)

/-- `unstuff(s)` (41_framer_rx R106). -/
def unstuff (s : List Byte) : Except UnstuffError (List Byte) := unstuffFrom 0 s

/-- `stuff(d)` (42_framer_tx R144). -/
def stuff : List Byte → List Byte
  | [] => []
  | x :: d =>
    if x = flagByte then 0x7D :: 0x5E :: stuff d
    else if x = escapeByte then 0x7D :: 0x5D :: stuff d
    else x :: stuff d

/-- `slen(d)`, the stuffed length, never truncated (42_framer_tx R145). -/
def slen (d : List Byte) : Nat := (stuff d).length

/-- `frame(c, d)`: the bytes of a frame in wire order (42_framer_tx R146). -/
def frame (c : Byte) (d : List Byte) : List Byte := flagByte :: c :: BitVec.ofNat 8 (slen d) :: stuff d

/-- The walk of `rl_decode` at index `p`, over the rest of the body; `fuel` bounds the runs (43_rl_rx R176). -/
def rlDecodeFrom : (fuel p : Nat) → (rest : List Byte) → Except Nat (List Byte)
  | _, _, [] => .ok []
  | 0, p, _ => .error p
  | fuel + 1, p, runPrefix :: tail =>
    let k := runPrefix.toNat
    if k = 0 ∨ tail.length + 1 < k then .error p
    else
      let next := tail.drop (k - 1)
      let zero := if next = [] then [] else [(0x00 : Byte)]
      (rlDecodeFrom fuel (p + k) next).map (tail.take (k - 1) ++ zero ++ ·)

/-- `rl_decode(body)` (43_rl_rx R176): a body has at most one run per byte. -/
def rlDecode (body : List Byte) : Except Nat (List Byte) := rlDecodeFrom body.length 0 body

/-- `for j in 0 .. k-2: b[p+j] <- b[p+j+1]` (43_rl_rx R177), the first `n` steps of it. -/
def shiftLeft (b : List Byte) (p : Nat) : Nat → List Byte
  | 0 => b
  | n + 1 =>
    let c := shiftLeft b p n
    c.set (p + n) (c.getD (p + n + 1) 0)

/-- The walk of `rl_decode_inplace` at index `p` over the buffer `b` (43_rl_rx R177). -/
def rlDecodeInplaceFrom (len : Nat) : (fuel p : Nat) → (b : List Byte) → Except Nat (List Byte)
  | 0, p, b => if p < len then .error p else .ok (b.take (len - 1))
  | fuel + 1, p, b =>
    if p < len then
      let k := (b.getD p 0).toNat
      if k = 0 ∨ len < p + k then .error p
      else rlDecodeInplaceFrom len fuel (p + k) ((shiftLeft b p (k - 1)).set (p + k - 1) 0x00)
    else .ok (b.take (len - 1))

/-- `rl_decode_inplace(b, L)` (43_rl_rx R177). -/
def rlDecodeInplace (b : List Byte) (len : Nat) : Except Nat (List Byte) := rlDecodeInplaceFrom len len 0 b

/-- A run: its prefix byte and its literal bytes (30_encoding R81). -/
def rlRun (seg : List Byte) : List Byte := BitVec.ofNat 8 (seg.length + 1) :: seg

/-- The runs of `rl_encode`, `seg` being the run in progress (44_rl_tx R214). -/
def rlRuns (seg : List Byte) : List Byte → List Byte
  | [] => rlRun seg
  | x :: d => if x = 0x00 then rlRun seg ++ rlRuns [] d else rlRuns (seg ++ [x]) d

/-- `rl_encode(m, d)`: the bytes of a packet in wire order (44_rl_tx R214). -/
def rlEncode (m : Mode) (d : List Byte) : List Byte := 0x00 :: lengthModeByte m (d.length + 1) :: rlRuns [] d

end Sys2Proof.Machine
end

