-- ==== Sys2Proof/Machine/FramerRx.lean ====
section
/-! DEFINITION. StuffedFramer receive: `FRX` (41_framer_rx R100-R105). -/

namespace Sys2Proof.Machine

/-- Frame completion `frx_complete()` (41_framer_rx R105): the unit is cleared, and the payload is delivered or one
diagnostic is raised. -/
def frxComplete (free : Nat → Byte) (u : Frx) : Frx × List Emission :=
  match unstuff (u.buf.readSeq free 0 u.len.toNat) with
  | .ok p => (u.clear, [.dlv (.frFrame u.cmd p)])
  | .error (.illegalFlag i) => u.recover .frIllegalFlag (BitVec.ofNat 8 i)
  | .error (.badEscape i) => u.recover .frBadEscape (BitVec.ofNat 8 i)

/-- `FRX b` in phase AF (41_framer_rx R101). -/
def frxAwaitFlag (b : Byte) (u : Frx) : Frx × List Emission :=
  if b = flagByte then ({ u with phase := .ac }, []) else (u, [diag .frGarbage b])

/-- `FRX b` in phase AC (41_framer_rx R102). -/
def frxAwaitCommand (b : Byte) (u : Frx) : Frx × List Emission := ({ u with cmd := b, phase := .al }, [])

/-- `FRX b` in phase AL (41_framer_rx R103); `m` is `MAX_PAYLOAD`. -/
def frxAwaitLength (m : Nat) (free : Nat → Byte) (b : Byte) (u : Frx) : Frx × List Emission :=
  if m < b.toNat then u.recover .frOverflow b
  else if b = 0 then frxComplete free { u with len := b, fill := 0 }
  else ({ u with len := b, fill := 0, phase := .ap }, [])

/-- `FRX b` in phase AP (41_framer_rx R104). -/
def frxAccumulate (m : Nat) (free : Nat → Byte) (b : Byte) (u : Frx) : Except Fault (Frx × List Emission) :=
  (Memory.store .frx m u.buf u.fill.toNat b).map fun buf =>
    let u' := { u with buf := buf, fill := u.fill + 1 }
    if u'.fill = u'.len then frxComplete free u' else (u', [])

/-- `FRX b` on the unit's record (41_framer_rx R100). -/
def frxReceive (m : Nat) (free : Nat → Byte) (b : Byte) (u : Frx) : Except Fault (Frx × List Emission) :=
  match u.phase with
  | .af => .ok (frxAwaitFlag b u)
  | .ac => .ok (frxAwaitCommand b u)
  | .al => .ok (frxAwaitLength m free b u)
  | .ap => frxAccumulate m free b u

/-- The effect of `FRX b`: `frx` only (41_framer_rx R100). -/
def frxEffect (b : Byte) (s : State) : Effect :=
  (frxReceive s.maxPayload.val (s.unwritten .frx) b s.frx).map fun r => (s.setFrx r.1, r.2)

/-- `FRX b` (41_framer_rx R100). -/
def execFrx (b : Byte) (s : State) : Host.Outcome State Fault Refusal := (frxEffect b s).complete

end Sys2Proof.Machine
end

