-- ==== Sys2Proof/Machine/Flags.lean ====
section
/-! DEFINITION. The block has no condition codes (10_state R22). What stands in their place are the result of the
transmit checks (42_framer_tx R143 R147, 44_rl_tx R213 R216) and the one-bit fields `active` and `over`, which the
transmit operations write. -/

namespace Sys2Proof.Machine

/-- The checks of `FTXE` on a frame that was begun, in their order (42_framer_tx R143, R147); `d` is its payload. -/
def ftxeResult (u : Ftx) (d : List Byte) : ResCode :=
  if u.n = 0 then .empty
  else if u.overflowed then .tooLong
  else if 255 < slen d then .stuffedTooLong
  else .ok

/-- The checks of `RTXE` on a packet that was begun, in their order (44_rl_tx R213, R216). -/
def rtxeResult (u : Rtx) : ResCode :=
  if u.n = 0 then .empty
  else if u.overflowed then .tooLong
  else .ok

end Sys2Proof.Machine
end

