-- ==== Sys2Proof/Machine/Formats.lean ====
section
/-! DEFINITION. The bits of the port values and of the phases: the port formats of 30_encoding R86-R89 and the phase
codes of 10_state R25 R26. -/

namespace Sys2Proof.Machine

/-- The 4-bit code of a tag (30_encoding R88). -/
def DiagTag.code : DiagTag → BitVec 4
  | .frGarbage => 0x1
  | .frOverflow => 0x2
  | .frIllegalFlag => 0x3
  | .frBadEscape => 0x4
  | .frCapacity => 0x5
  | .rlUnexpected => 0x6
  | .rlIncomplete => 0x7
  | .rlBadLength => 0x8
  | .rlBadRun => 0x9
  | .rlCapacity => 0xA
  | .txSeq => 0xB
  | .illegalOp => 0xC

/-- The 12-bit event on `DIAG`: tag in bits 11:8, info in bits 7:0 (30_encoding R87). -/
def Diag.bits (e : Diag) : BitVec 12 := e.tag.code ++ e.info

/-- The 3-bit result code (30_encoding R89). -/
def ResCode.code : ResCode → BitVec 3
  | .ok => 0
  | .empty => 1
  | .tooLong => 2
  | .stuffedTooLong => 3
  | .notBegun => 4

/-- The result code as the info byte of a capacity diagnostic (30_encoding R88). -/
def ResCode.info (c : ResCode) : Byte := c.code.zeroExtend 8

/-- The unit bit of a result: 0 for `FTXE`, 1 for `RTXE` (30_encoding R89). -/
def TxUnit.bit : TxUnit → BitVec 1
  | .fr => 0
  | .rl => 1

/-- The 4-bit value on `RES`: unit in bit 3, code in bits 2:0 (30_encoding R89). -/
def Res.bits (r : Res) : BitVec 4 := r.unit.bit ++ r.code.code

/-- The payload of a delivery. -/
def Delivery.payload : Delivery → List Byte
  | .frFrame _ p => p
  | .rlPacket _ p => p

/-- The header of a delivery on a physical port, unit then sel then len, 17 bits (30_encoding R86). -/
def Delivery.header : Delivery → BitVec 17
  | .frFrame cmd p => (0 : BitVec 1) ++ cmd ++ BitVec.ofNat 8 p.length
  | .rlPacket mode p => (1 : BitVec 1) ++ (mode.zeroExtend 8 : Byte) ++ BitVec.ofNat 8 p.length

/-- The code of a phase of `frx` (10_state R25); nothing observes it. -/
def FrxPhase.code : FrxPhase → BitVec 2
  | .af => 0
  | .ac => 1
  | .al => 2
  | .ap => 3

/-- The code of a phase of `rrx` (10_state R26); nothing observes it. -/
def RrxPhase.code : RrxPhase → BitVec 2
  | .idle => 0
  | .len => 1
  | .body => 2

end Sys2Proof.Machine
end

