-- ==== Sys2Proof/Machine/FramerTx.lean ====
section
/-! DEFINITION. StuffedFramer transmit: `FTXB`, `FTXD`, `FTXE` (42_framer_tx R140-R147). -/

namespace Sys2Proof.Machine

/-- `FTXB c` on the unit's record (42_framer_tx R141). -/
def ftxBegin (c : Byte) (u : Ftx) : Ftx × List Emission :=
  ({ u with active := true, cmd := c, n := 0, overflowed := false }, if u.active then [diag .txSeq 0x30] else [])

/-- `FTXD b` on the unit's record (42_framer_tx R142); `m` is `MAX_PAYLOAD`, the depth of the buffer. -/
def ftxData (m : Nat) (b : Byte) (u : Ftx) : Ftx × List Emission :=
  if u.active then
    if u.n.toNat < m then ({ u with buf := u.buf.put u.n.toNat b, n := u.n + 1 }, [])
    else ({ u with overflowed := true }, [])
  else (u, [diag .txSeq 0x40])

/-- `FTXE` on the unit's record (42_framer_tx R143). -/
def ftxEnd (free : Nat → Byte) (u : Ftx) : Ftx × List Emission :=
  if u.active then
    let d := u.buf.readSeq free 0 u.n.toNat
    match ftxeResult u d with
    | .ok => (u.clear, (frame u.cmd d).map .fw ++ [.res ⟨.fr, .ok⟩])
    | r => (u.clear, [diag .frCapacity r.info, .res ⟨.fr, r⟩])
  else (u, [diag .txSeq 0x50, .res ⟨.fr, .notBegun⟩])

/-- The effect of `FTXB c`: `ftx` only. -/
def ftxbEffect (c : Byte) (s : State) : Effect :=
  let r := ftxBegin c s.ftx
  .ok (s.setFtx r.1, r.2)

/-- The effect of `FTXD b`: `ftx` only. -/
def ftxdEffect (b : Byte) (s : State) : Effect :=
  let r := ftxData s.maxPayload.val b s.ftx
  .ok (s.setFtx r.1, r.2)

/-- The effect of `FTXE`: `ftx` only. -/
def ftxeEffect (s : State) : Effect :=
  let r := ftxEnd (s.unwritten .ftx) s.ftx
  .ok (s.setFtx r.1, r.2)

/-- `FTXB c` (42_framer_tx R141). -/
def execFtxb (c : Byte) (s : State) : Host.Outcome State Fault Refusal := (ftxbEffect c s).complete

/-- `FTXD b` (42_framer_tx R142). -/
def execFtxd (b : Byte) (s : State) : Host.Outcome State Fault Refusal := (ftxdEffect b s).complete

/-- `FTXE` (42_framer_tx R143). -/
def execFtxe (s : State) : Host.Outcome State Fault Refusal := (ftxeEffect s).complete

end Sys2Proof.Machine
end

