-- ==== Sys2Proof/Machine/RunLengthRx.lean ====
section
/-! DEFINITION. RunLengthPacketizer receive: `RRX` (43_rl_rx R170-R175). -/

namespace Sys2Proof.Machine

/-- Packet completion `rrx_complete()` (43_rl_rx R174). -/
def rrxComplete (free : Nat → Byte) (u : Rrx) : Rrx × List Emission :=
  match rlDecode (u.buf.readSeq free 0 u.len.toNat) with
  | .ok p => (u.clear, [.dlv (.rlPacket u.mode p)])
  | .error i => u.recover .rlBadRun (BitVec.ofNat 8 i)

/-- `RRX b` in phase IDLE (43_rl_rx R171). -/
def rrxIdle (b : Byte) (u : Rrx) : Rrx × List Emission :=
  if b = 0x00 then ({ u with phase := .len }, []) else (u, [diag .rlUnexpected b])

/-- `RRX b` in phase LEN (43_rl_rx R172). -/
def rrxLength (b : Byte) (u : Rrx) : Rrx × List Emission :=
  if b = 0x00 then (u, [])
  else if lengthField b = 0 then u.recover .rlBadLength b
  else ({ u with mode := modeField b, len := lengthField b, fill := 0, phase := .body }, [])

/-- `RRX 0x00` in phase BODY, an early boundary (43_rl_rx R175). -/
def rrxEarlyBoundary (u : Rrx) : Rrx × List Emission :=
  let r := u.recover .rlIncomplete (u.fill.zeroExtend 8)
  ({ r.1 with phase := .len }, r.2)

/-- `RRX b` in phase BODY with `b` not 0x00 (43_rl_rx R173). -/
def rrxBody (free : Nat → Byte) (b : Byte) (u : Rrx) : Except Fault (Rrx × List Emission) :=
  (Memory.store .rrx rrxDepth u.buf u.fill.toNat b).map fun buf =>
    let u' := { u with buf := buf, fill := u.fill + 1 }
    if u'.fill = u'.len then rrxComplete free u' else (u', [])

/-- `RRX b` on the unit's record (43_rl_rx R170). -/
def rrxReceive (free : Nat → Byte) (b : Byte) (u : Rrx) : Except Fault (Rrx × List Emission) :=
  match u.phase with
  | .idle => .ok (rrxIdle b u)
  | .len => .ok (rrxLength b u)
  | .body => if b = 0x00 then .ok (rrxEarlyBoundary u) else rrxBody free b u

/-- The effect of `RRX b`: `rrx` only (43_rl_rx R170). -/
def rrxEffect (b : Byte) (s : State) : Effect :=
  (rrxReceive (s.unwritten .rrx) b s.rrx).map fun r => (s.setRrx r.1, r.2)

/-- `RRX b` (43_rl_rx R170). -/
def execRrx (b : Byte) (s : State) : Host.Outcome State Fault Refusal := (rrxEffect b s).complete

end Sys2Proof.Machine
end

