-- ==== Sys2Proof/Machine/RunLengthTx.lean ====
section
/-! DEFINITION. RunLengthPacketizer transmit: `RTXB`, `RTXD`, `RTXE` (44_rl_tx R210-R216). -/

namespace Sys2Proof.Machine

/-- `RTXB m` on the unit's record (44_rl_tx R211). -/
def rtxBegin (m : Mode) (u : Rtx) : Rtx × List Emission :=
  ({ u with active := true, mode := m, n := 0, overflowed := false },
    if u.active then [diag .txSeq (rtxbSeqInfo m)] else [])

/-- `RTXD b` on the unit's record (44_rl_tx R212). -/
def rtxData (b : Byte) (u : Rtx) : Rtx × List Emission :=
  if u.active then
    if u.n.toNat < rtxDepth then ({ u with buf := u.buf.put u.n.toNat b, n := u.n + 1 }, [])
    else ({ u with overflowed := true }, [])
  else (u, [diag .txSeq 0x70])

/-- `RTXE` on the unit's record (44_rl_tx R213). -/
def rtxEnd (free : Nat → Byte) (u : Rtx) : Rtx × List Emission :=
  if u.active then
    match rtxeResult u with
    | .ok => (u.clear, (rlEncode u.mode (u.buf.readSeq free 0 u.n.toNat)).map .rw ++ [.res ⟨.rl, .ok⟩])
    | r => (u.clear, [diag .rlCapacity r.info, .res ⟨.rl, r⟩])
  else (u, [diag .txSeq 0x80, .res ⟨.rl, .notBegun⟩])

/-- The effect of `RTXB m`: `rtx` only. -/
def rtxbEffect (m : Mode) (s : State) : Effect :=
  let r := rtxBegin m s.rtx
  .ok (s.setRtx r.1, r.2)

/-- The effect of `RTXD b`: `rtx` only. -/
def rtxdEffect (b : Byte) (s : State) : Effect :=
  let r := rtxData b s.rtx
  .ok (s.setRtx r.1, r.2)

/-- The effect of `RTXE`: `rtx` only. -/
def rtxeEffect (s : State) : Effect :=
  let r := rtxEnd (s.unwritten .rtx) s.rtx
  .ok (s.setRtx r.1, r.2)

/-- `RTXB m` (44_rl_tx R211). -/
def execRtxb (m : Mode) (s : State) : Host.Outcome State Fault Refusal := (rtxbEffect m s).complete

/-- `RTXD b` (44_rl_tx R212). -/
def execRtxd (b : Byte) (s : State) : Host.Outcome State Fault Refusal := (rtxdEffect b s).complete

/-- `RTXE` (44_rl_tx R213). -/
def execRtxe (s : State) : Host.Outcome State Fault Refusal := (rtxeEffect s).complete

end Sys2Proof.Machine
end

