-- ==== Sys2Proof/Machine/Effects.lean ====
section
/-! DEFINITION. The effect of an operation before its values are accepted, needed where the reset input cuts an
operation short (70_reset R294), and the step a decoded word takes in either case. -/

namespace Sys2Proof.Machine

/-- What an operation does to the state and what it emits (00_scope R16). -/
def instrEffect (i : Instr) (s : State) : Effect :=
  match i with
  | .nop => nopEffect s
  | .frx b => frxEffect b s
  | .rrx b => rrxEffect b s
  | .ftxb b => ftxbEffect b s
  | .ftxd b => ftxdEffect b s
  | .ftxe => ftxeEffect s
  | .rtxb m => rtxbEffect m s
  | .rtxd b => rtxdEffect b s
  | .rtxe => rtxeEffect s
  | .clr t => clrEffect t s

/-- What a decoded word does, an illegal one included (30_encoding R76, 45_control R244). -/
def decodedEffect (d : Decoded) (s : State) : Effect :=
  match d with
  | .op i => instrEffect i s
  | .illegal info => illegalEffect info s

/-- A word during whose execution the reset input is asserted (70_reset R291, R294). -/
def cutWord (w : Word) (s : State) : Host.Outcome State Fault Refusal := (decodedEffect (decode w) s).cutShort s

/-- The reset input asserted between operations (70_reset R290, R291). -/
def resetBetween (s : State) (rest : List InputEvent) : Host.Outcome State Fault Refusal :=
  .next { s.assertReset with input := rest }

end Sys2Proof.Machine
end

