-- ==== Sys2Proof/Machine/Dispatch.lean ====
section
/-! DEFINITION. The meaning of each operation, one arm per constructor of `Instr`. -/

namespace Sys2Proof.Machine

def exec (i : Instr) (s : State) : Host.Outcome State Fault Refusal :=
  match i with
  | .nop => Sys2Proof.Machine.execNop s
  | .frx b => Sys2Proof.Machine.execFrx b s
  | .rrx b => Sys2Proof.Machine.execRrx b s
  | .ftxb b => Sys2Proof.Machine.execFtxb b s
  | .ftxd b => Sys2Proof.Machine.execFtxd b s
  | .ftxe => Sys2Proof.Machine.execFtxe s
  | .rtxb m => Sys2Proof.Machine.execRtxb m s
  | .rtxd b => Sys2Proof.Machine.execRtxd b s
  | .rtxe => Sys2Proof.Machine.execRtxe s
  | .clr t => Sys2Proof.Machine.execClr t s

end Sys2Proof.Machine
end

