-- ==== Sys2Proof/Machine/Step.lean ====
section
/-! DEFINITION. One step: what the host does next, done (00_scope R16, 30_encoding R70, 70_reset R290). -/

namespace Sys2Proof.Machine

/-- With no event the state is held (70_reset R297). A word is accepted and executed (30_encoding R70, R76,
45_control R244). The reset input takes effect between operations (70_reset R291) or during one (70_reset R294). -/
def step (s : State) : Host.Outcome State Fault Refusal :=
  match s.input with
  | [] => .next s
  | .word w :: rest =>
    match decode w with
    | .op i => exec i (s.accept rest)
    | .illegal info => execIllegal info (s.accept rest)
  | .reset :: rest => resetBetween s rest
  | .resetDuring w :: rest => cutWord w (s.accept rest)

/-- `s` with a table word of `nbits` bits offered as the next word on the input port, the bits above `nbits` zero
(30_encoding R70, R71). -/
def State.withFetchWord (s : State) (nbits w : Nat) : State :=
  { s with input := .word (BitVec.ofNat 16 (w % 2 ^ nbits)) :: s.input }

end Sys2Proof.Machine
end

