-- ==== Sys2Proof/WellFormed.lean ====
section
/-! DEFINITION. Well-formedness of what a program text can say. An `Instr` is well formed by its type (every operand
has exactly the width of its field, 30_encoding R72), so the checks stand on the assembly line, where "an operand that
does not fit its field is an assembly error, never a truncation" (30_encoding R90). -/

namespace Sys2Proof

/-- The operand is one the mnemonic's row has, in a form R90 allows, and it fits its field. -/
def AsmLine.wf (l : AsmLine) : Bool :=
  match l.mnemonic, l.operand with
  | .nop, .absent => true
  | .ftxe, .absent => true
  | .rtxe, .absent => true
  | .frx, .hex n => n < 256
  | .rrx, .hex n => n < 256
  | .ftxb, .hex n => n < 256
  | .ftxd, .hex n => n < 256
  | .rtxd, .hex n => n < 256
  | .rtxb, .dec n => n < 4
  | .rtxb, .mode _ => true
  | .clr, .hex n => n < 16
  | .clr, .units names => !names.isEmpty
  | _, _ => false

end Sys2Proof
end

