-- ==== Sys2Proof/Machine/Assembler.lean ====
section
/-! DEFINITION. The assembly syntax of an operation, read and written (30_encoding R90), and the expansions of the
pseudo-operations (30_encoding R91). A text is its list of characters. Log entry 7. -/

namespace Sys2Proof.Machine

/-- The mnemonic as written (30_encoding R73). -/
def mnemonicText : Mnemonic → List Char
  | .nop => ['N', 'O', 'P']
  | .frx => ['F', 'R', 'X']
  | .rrx => ['R', 'R', 'X']
  | .ftxb => ['F', 'T', 'X', 'B']
  | .ftxd => ['F', 'T', 'X', 'D']
  | .ftxe => ['F', 'T', 'X', 'E']
  | .rtxb => ['R', 'T', 'X', 'B']
  | .rtxd => ['R', 'T', 'X', 'D']
  | .rtxe => ['R', 'T', 'X', 'E']
  | .clr => ['C', 'L', 'R']

/-- A mode's name as written (30_encoding R90). -/
def modeText : ModeName → List Char
  | .normal => ['n', 'o', 'r', 'm', 'a', 'l']
  | .rxerr => ['r', 'x', 'e', 'r', 'r']
  | .txerr => ['t', 'x', 'e', 'r', 'r']
  | .userlog => ['u', 's', 'e', 'r', 'l', 'o', 'g']

/-- A unit's name as written (30_encoding R90). -/
def unitText : UnitId → List Char
  | .frx => ['f', 'r', 'x']
  | .ftx => ['f', 't', 'x']
  | .rrx => ['r', 'r', 'x']
  | .rtx => ['r', 't', 'x']

/-- The mode a name stands for (30_encoding R80, R90). -/
def modeOfName : ModeName → Mode
  | .normal => 0
  | .rxerr => 1
  | .txerr => 2
  | .userlog => 3

/-- The mask bit of a unit (30_encoding R72). -/
def maskBit : UnitId → UnitMask
  | .frx => 0x1
  | .ftx => 0x2
  | .rrx => 0x4
  | .rtx => 0x8

/-- The mask of a joined list of unit names (30_encoding R90). -/
def maskOfUnits (names : List UnitId) : UnitMask := names.foldr (fun u t => maskBit u ||| t) 0

/-- The byte of a byte operand. -/
def byteOperand : AsmOperand → Byte
  | .hex n => BitVec.ofNat 8 n
  | _ => 0

/-- The mode of a mode operand. -/
def modeOperand : AsmOperand → Mode
  | .dec n => BitVec.ofNat 2 n
  | .mode name => modeOfName name
  | _ => 0

/-- The mask of a mask operand. -/
def maskOperand : AsmOperand → UnitMask
  | .hex n => BitVec.ofNat 4 n
  | .units names => maskOfUnits names
  | _ => 0

/-- The operation of an assembly line; a line whose operand is missing, of the wrong form or too large is an assembly
error (30_encoding R90). -/
def assemble (l : AsmLine) : Option Instr :=
  if l.wf then
    some (match l.mnemonic with
      | .nop => .nop
      | .frx => .frx (byteOperand l.operand)
      | .rrx => .rrx (byteOperand l.operand)
      | .ftxb => .ftxb (byteOperand l.operand)
      | .ftxd => .ftxd (byteOperand l.operand)
      | .ftxe => .ftxe
      | .rtxb => .rtxb (modeOperand l.operand)
      | .rtxd => .rtxd (byteOperand l.operand)
      | .rtxe => .rtxe
      | .clr => .clr (maskOperand l.operand))
  else none

/-- The value of a decimal digit. -/
def decDigit (c : Char) : Option Nat := if '0' ≤ c ∧ c ≤ '9' then some (c.toNat - 48) else none

/-- The value of a hexadecimal digit as the spec writes them. -/
def hexDigit (c : Char) : Option Nat := if 'A' ≤ c ∧ c ≤ 'F' then some (c.toNat - 55) else decDigit c

/-- Reads digits to the end of the text, onto the value read so far. -/
def readDigits (base : Nat) (digit : Char → Option Nat) (value : Nat) : List Char → Option Nat
  | [] => some value
  | c :: cs =>
    match digit c with
    | some d => readDigits base digit (value * base + d) cs
    | none => none

/-- Splits a text at every `sep`. -/
def splitAt (sep : Char) : List Char → List (List Char)
  | [] => [[]]
  | c :: cs =>
    if c = sep then [] :: splitAt sep cs
    else
      match splitAt sep cs with
      | part :: parts => (c :: part) :: parts
      | [] => [[c]]

/-- Reads a mode name. -/
def readMode (t : List Char) : Option ModeName :=
  [ModeName.normal, .rxerr, .txerr, .userlog].find? (fun n => modeText n == t)

/-- Reads a unit name. -/
def readUnit (t : List Char) : Option UnitId :=
  [UnitId.frx, .ftx, .rrx, .rtx].find? (fun u => unitText u == t)

/-- Reads a mnemonic. -/
def readMnemonic (t : List Char) : Option Mnemonic :=
  [Mnemonic.nop, .frx, .rrx, .ftxb, .ftxd, .ftxe, .rtxb, .rtxd, .rtxe, .clr].find? (fun m => mnemonicText m == t)

/-- Reads an operand: `0x` and hexadecimal digits, decimal digits, a mode name, or unit names joined by `+`
(30_encoding R90). -/
def readOperand (t : List Char) : Option AsmOperand :=
  match t with
  | [] => none
  | '0' :: 'x' :: c :: cs => (readDigits 16 hexDigit 0 (c :: cs)).map .hex
  | c :: cs =>
    match readDigits 10 decDigit 0 (c :: cs) with
    | some n => some (.dec n)
    | none =>
      match readMode (c :: cs) with
      | some name => some (.mode name)
      | none => ((splitAt '+' (c :: cs)).mapM readUnit).map .units

/-- Reads a line: a mnemonic, or a mnemonic, a space and an operand (30_encoding R90). -/
def readLine (t : List Char) : Option AsmLine :=
  match splitAt ' ' t with
  | [m] => (readMnemonic m).map fun mn => ⟨mn, .absent⟩
  | [m, o] =>
    match readMnemonic m, readOperand o with
    | some mn, some op => some ⟨mn, op⟩
    | _, _ => none
  | _ => none

/-- Assembles a text (30_encoding R90). -/
def assembleText (t : List Char) : Option Instr :=
  match readLine t with
  | some l => assemble l
  | none => none

/-- The hexadecimal digit of a value below 16. -/
def hexChar (n : Nat) : Char := if n < 10 then Char.ofNat (48 + n) else Char.ofNat (55 + n)

/-- A byte as `0xNN` (30_encoding R90). -/
def byteText (b : Byte) : List Char := ['0', 'x', hexChar (b.toNat / 16), hexChar (b.toNat % 16)]

/-- An operation as written (30_encoding R90). -/
def instrText (i : Instr) : List Char :=
  mnemonicText i.mnemonic ++
    match i with
    | .nop => []
    | .frx b => ' ' :: byteText b
    | .rrx b => ' ' :: byteText b
    | .ftxb b => ' ' :: byteText b
    | .ftxd b => ' ' :: byteText b
    | .ftxe => []
    | .rtxb m => [' ', hexChar m.toNat]
    | .rtxd b => ' ' :: byteText b
    | .rtxe => []
    | .clr t => [' ', '0', 'x', hexChar t.toNat]

/-- The expansion of a pseudo-operation (30_encoding R91). -/
def expand : Pseudo → List Instr
  | .rst => [.clr 0xF]
  | .ffeed bytes => bytes.map .frx
  | .rfeed bytes => bytes.map .rrx
  | .fsend c data => .ftxb c :: data.map .ftxd ++ [.ftxe]
  | .rsend m data => .rtxb m :: data.map .rtxd ++ [.rtxe]

/-- The input events that offer operations, in order (30_encoding R70). -/
def offer (is : List Instr) : List InputEvent := is.map fun i => .word (encode i)

end Sys2Proof.Machine
end

