-- ==== Sys2Proof/Safety.lean ====
section
/-! DEFINITION. What a run and its launch are: initial units and clean entry (10_state R29, 70_reset R301), the
invariants of a launch state (10_state R34-R37), and a run with its observation (70_reset R302). -/

namespace Sys2Proof.Machine

/-- `frx` equals its initial state, buffer contents disregarded (10_state R29). -/
abbrev Frx.Initial (u : Frx) : Prop := u.phase = .af ∧ u.cmd = 0 ∧ u.len = 0 ∧ u.fill = 0

/-- `ftx` equals its initial state (10_state R29). -/
abbrev Ftx.Initial (u : Ftx) : Prop := u.active = false ∧ u.cmd = 0 ∧ u.n = 0 ∧ u.overflowed = false

/-- `rrx` equals its initial state (10_state R29). -/
abbrev Rrx.Initial (u : Rrx) : Prop := u.phase = .idle ∧ u.mode = 0 ∧ u.len = 0 ∧ u.fill = 0

/-- `rtx` equals its initial state (10_state R29). -/
abbrev Rtx.Initial (u : Rtx) : Prop := u.active = false ∧ u.mode = 0 ∧ u.n = 0 ∧ u.overflowed = false

/-- Every unit equals its initial state (10_state R29). -/
abbrev State.UnitsInitial (s : State) : Prop := s.frx.Initial ∧ s.ftx.Initial ∧ s.rrx.Initial ∧ s.rtx.Initial

/-- The clean-entry premise of a launch state (70_reset R301). -/
abbrev State.CleanEntry (s : State) : Prop := s.UnitsInitial ∧ s.ports = Ports.empty

/-- The first `n` cells of a buffer have been written since reset (70_reset R301). -/
abbrev Memory.Holds (m : Memory) (n : Nat) : Prop := ∀ i, i < n → (m.find i).isSome = true

/-- The invariant of `frx` in a block with `MAX_PAYLOAD = m` (10_state R34, 70_reset R301). -/
abbrev Frx.Inv (m : Nat) (u : Frx) : Prop :=
  (u.phase ≠ .ap → u.len = 0 ∧ u.fill = 0) ∧
  (u.phase = .af → u.cmd = 0) ∧
  (u.phase = .ap → 1 ≤ u.len.toNat ∧ u.len.toNat ≤ m ∧ u.fill.toNat < u.len.toNat) ∧
  u.buf.wf m = true ∧ u.buf.Holds u.fill.toNat

/-- The invariant of `ftx` in a block with `MAX_PAYLOAD = m` (10_state R35, 70_reset R301). -/
abbrev Ftx.Inv (m : Nat) (u : Ftx) : Prop :=
  (u.active = false → u.cmd = 0 ∧ u.n = 0 ∧ u.overflowed = false) ∧
  u.n.toNat ≤ m ∧
  (u.overflowed = true → u.n.toNat = m) ∧
  u.buf.wf m = true ∧ u.buf.Holds u.n.toNat

/-- The invariant of `rrx` (10_state R36, 70_reset R301). -/
abbrev Rrx.Inv (u : Rrx) : Prop :=
  (u.phase ≠ .body → u.mode = 0 ∧ u.len = 0 ∧ u.fill = 0) ∧
  (u.phase = .body → 1 ≤ u.len.toNat ∧ u.fill.toNat < u.len.toNat) ∧
  u.buf.wf rrxDepth = true ∧ u.buf.Holds u.fill.toNat

/-- The invariant of `rtx` (10_state R37, 70_reset R301). -/
abbrev Rtx.Inv (u : Rtx) : Prop :=
  (u.active = false → u.mode = 0 ∧ u.n = 0 ∧ u.overflowed = false) ∧
  u.n.toNat ≤ rtxDepth ∧
  (u.overflowed = true → u.n.toNat = rtxDepth) ∧
  u.buf.wf rtxDepth = true ∧ u.buf.Holds u.n.toNat

/-- What a launch state satisfies: the range of the build parameter and the invariants of the four units
(00_scope R6, 10_state R34-R37, 70_reset R301). -/
abbrev State.Inv (s : State) : Prop :=
  1 ≤ s.maxPayload.val ∧ s.frx.Inv s.maxPayload.val ∧ s.ftx.Inv s.maxPayload.val ∧ s.rrx.Inv ∧ s.rtx.Inv

/-- `s` with operations offered on the input port, in order (30_encoding R70). -/
def State.offering (s : State) (is : List Instr) : State := { s with input := offer is }

/-- The operation is addressed to the unit: it is one of the unit's own, or a `CLR` that selects it
(00_scope R17, 60_exceptions R274). -/
def addresses (unit : UnitId) (i : Instr) : Bool :=
  match i with
  | .nop => false
  | .frx _ => unit == .frx
  | .rrx _ => unit == .rrx
  | .ftxb _ => unit == .ftx
  | .ftxd _ => unit == .ftx
  | .ftxe => unit == .ftx
  | .rtxb _ => unit == .rtx
  | .rtxd _ => unit == .rtx
  | .rtxe => unit == .rtx
  | .clr t => maskSelects t unit

/-- The unit a diagnostic is from; an illegal word's is from none. The info of `TX_SEQ` is bits 15:8 of the operation
word, so it tells the transmitters apart (30_encoding R88). -/
def Diag.raisedBy (e : Diag) : Option UnitId :=
  match e.tag with
  | .frGarbage | .frOverflow | .frIllegalFlag | .frBadEscape => some .frx
  | .frCapacity => some .ftx
  | .rlUnexpected | .rlIncomplete | .rlBadLength | .rlBadRun => some .rrx
  | .rlCapacity => some .rtx
  | .txSeq => if e.info.toNat < 0x60 then some .ftx else some .rtx
  | .illegalOp => none

/-- The unit a delivery is from (30_encoding R85). -/
def Delivery.deliveredBy : Delivery → UnitId
  | .frFrame _ _ => .frx
  | .rlPacket _ _ => .rrx

/-- The unit a transmit result is from (30_encoding R89). -/
def Res.reportedBy (r : Res) : UnitId :=
  match r.unit with
  | .fr => .ftx
  | .rl => .rtx

/-- Two states hold the same record of a unit. -/
def State.SameRecord (unit : UnitId) (s t : State) : Prop :=
  match unit with
  | .frx => s.frx = t.frx
  | .ftx => s.ftx = t.ftx
  | .rrx => s.rrx = t.rrx
  | .rtx => s.rtx = t.rtx

/-- Two states agree on a unit: on its record, and on what it has put on each port (60_exceptions R274). -/
def State.AgreeOn (unit : UnitId) (s t : State) : Prop :=
  State.SameRecord unit s t ∧
  s.ports.diag.filter (fun e => e.raisedBy == some unit) = t.ports.diag.filter (fun e => e.raisedBy == some unit) ∧
  s.ports.dlv.filter (fun d => d.deliveredBy == unit) = t.ports.dlv.filter (fun d => d.deliveredBy == unit) ∧
  s.ports.res.filter (fun r => r.reportedBy == unit) = t.ports.res.filter (fun r => r.reportedBy == unit) ∧
  (unit = .ftx → s.ports.fw = t.ports.fw) ∧
  (unit = .rtx → s.ports.rw = t.ports.rw)

/-- Runs the block until its input is used up (70_reset R302). -/
def runToEnd (s : State) : Host.Outcome State Fault Refusal := Host.Core.run Sys2Proof.core s.input.length s

/-- `s` with operation words offered on the input port, in order, and no reset asserted (30_encoding R70,
70_reset R302). -/
def State.offeringWords (s : State) (ws : List Word) : State := { s with input := ws.map .word }

/-- The observation at the end of a run (70_reset R302): the units' fields, the buffer bytes below the counters, and
the five traces of what the run's words emitted. -/
structure Observation where
  frx : FrxPhase × Byte × BitVec 8 × BitVec 8 × List Byte
  ftx : Bool × Byte × BitVec 8 × Bool × List Byte
  rrx : RrxPhase × Mode × BitVec 6 × BitVec 6 × List Byte
  rtx : Bool × Mode × BitVec 6 × Bool × List Byte
  ports : Ports
deriving DecidableEq, Repr

/-- Observes the final state `s` of a run from `launch`: buffer bytes at or above `fill` (or `n`) are discarded, and
of each trace only the values emitted since the launch are seen (70_reset R302). -/
def State.observe (launch s : State) : Observation :=
  { frx := (s.frx.phase, s.frx.cmd, s.frx.len, s.frx.fill, s.frx.buf.readSeq (s.unwritten .frx) 0 s.frx.fill.toNat)
    ftx := (s.ftx.active, s.ftx.cmd, s.ftx.n, s.ftx.overflowed, s.ftx.buf.readSeq (s.unwritten .ftx) 0 s.ftx.n.toNat)
    rrx := (s.rrx.phase, s.rrx.mode, s.rrx.len, s.rrx.fill, s.rrx.buf.readSeq (s.unwritten .rrx) 0 s.rrx.fill.toNat)
    rtx := (s.rtx.active, s.rtx.mode, s.rtx.n, s.rtx.overflowed, s.rtx.buf.readSeq (s.unwritten .rtx) 0 s.rtx.n.toNat)
    ports := s.ports.since launch.ports }

/-- The run of a sequence of operation words from a launch state, and its observation at the end (70_reset R302). A run
that stops has none; from a launch state that meets the invariants no run stops. -/
def observeRun (launch : State) (ws : List Word) : Option Observation :=
  match runToEnd (launch.offeringWords ws) with
  | .next t => some (State.observe launch t)
  | .fault _ => none
  | .refused _ => none

end Sys2Proof.Machine
end

