-- ==== Sys2Proof/Certificates/Slice0/Obligations.lean ====
section
/-! DEFINITION. The statements for the provers, each over every state it says nothing else of. The fault of log entry 6
and the free values of log entries 2 and 4 stand in some; no statement rests on a free value. -/

open Sys2Proof Sys2Proof.Machine

/-! ## Encodings -/

/-- Decoding an encoded operation gives the operation back, at every value of every operand (30_encoding R73, R76). -/
def Obligations.DecodeEncodeAgree : Prop := ∀ i : Instr, decode (encode i) = .op i

/-- Every word is the encoding of the operation it decodes to, or it is illegal, matches no row, and is reported by its
bits 15:8; a reserved `op` is illegal (30_encoding R74, R75, R76). -/
def Obligations.EveryWordIsAnEncodingOrIllegal : Prop :=
  ∀ w : Word,
    ((∃ i, decode w = .op i ∧ encode i = w) ∨
      (decode w = .illegal (w.extractLsb' 8 8) ∧ ∀ r ∈ opRows, w &&& r.mask ≠ r.pattern)) ∧
    (0xA ≤ (w.extractLsb' 12 4).toNat → decode w = .illegal (w.extractLsb' 8 8))

/-- No word is selected by two rows of the operation map (30_encoding R73). -/
def Obligations.OperationRowsDisjoint : Prop :=
  ∀ w : Word, ∀ r ∈ opRows, ∀ r' ∈ opRows, w &&& r.mask = r.pattern → w &&& r'.mask = r'.pattern → r = r'

/-- Words written out from the spec decode to what they stand for (30_encoding R73, R74; 95_test_vectors T10). -/
def Obligations.WrittenOutWordsDecode : Prop :=
  decode 0x0000 = .op .nop ∧ decode 0x107E = .op (.frx 0x7E) ∧ decode 0x2005 = .op (.rrx 0x05) ∧
  decode 0x3001 = .op (.ftxb 0x01) ∧ decode 0x4041 = .op (.ftxd 0x41) ∧ decode 0x5000 = .op .ftxe ∧
  decode 0x6200 = .op (.rtxb 2) ∧ decode 0x7043 = .op (.rtxd 0x43) ∧ decode 0x8000 = .op .rtxe ∧
  decode 0x9500 = .op (.clr 0x5) ∧ decode 0x0001 = .illegal 0x00 ∧ decode 0x1100 = .illegal 0x11 ∧
  decode 0x5001 = .illegal 0x50 ∧ decode 0x6400 = .illegal 0x64 ∧ decode 0x9001 = .illegal 0x90 ∧
  decode 0xA012 = .illegal 0xA0

/-- The written form of an operation reads back as the operation (30_encoding R90). -/
def Obligations.AssemblyTextReadsBack : Prop := ∀ i : Instr, assembleText (instrText i) = some i

/-- An operand that assembles is in the operation as it was written: one that does not fit its field is an error, never
truncated (30_encoding R90). -/
def Obligations.AssemblyNeverTruncates : Prop :=
  ∀ n : Nat,
    (∀ b, (assemble ⟨.frx, .hex n⟩ = some (.frx b) ∨ assemble ⟨.rrx, .hex n⟩ = some (.rrx b) ∨
      assemble ⟨.ftxb, .hex n⟩ = some (.ftxb b) ∨ assemble ⟨.ftxd, .hex n⟩ = some (.ftxd b) ∨
      assemble ⟨.rtxd, .hex n⟩ = some (.rtxd b)) → b.toNat = n) ∧
    (∀ m, assemble ⟨.rtxb, .dec n⟩ = some (.rtxb m) → m.toNat = n) ∧
    (∀ t, assemble ⟨.clr, .hex n⟩ = some (.clr t) → t.toNat = n) ∧
    (256 ≤ n → ∀ mn, assemble ⟨mn, .hex n⟩ = none)

/-! ## The step -/

/-- A step at a word that decodes to an operation is that operation's meaning, the word taken from the input and counted
(30_encoding R70, 10_state R21). -/
def Obligations.StepRunsDecodedWord : Prop :=
  ∀ (s : State) (w : Word) (rest : List InputEvent) (i : Instr),
    s.input = .word w :: rest → decode w = .op i →
    step s = exec i { s with input := rest, opIndex := s.opIndex + 1 }

/-- A word that matches no row emits one `ILLEGAL_OP` event with its bits 15:8 and changes no unit (45_control R244,
30_encoding R75). That the word leaves the input list and is counted follows 30_encoding R70 and 10_state R21 in the
model's form (log entry 3). -/
def Obligations.IllegalWordReportsAndGoesOn : Prop :=
  ∀ (s : State) (w : Word) (rest : List InputEvent),
    s.input = .word w :: rest → (∀ r ∈ opRows, w &&& r.mask ≠ r.pattern) →
    step s = .next { s with
      input := rest
      opIndex := s.opIndex + 1
      ports := { s.ports with diag := s.ports.diag ++ [⟨.illegalOp, w.extractLsb' 8 8⟩] } }

/-- With no word offered the block does nothing and its state is held (70_reset R297); that the words offered are a list
in the state is log entry 3. -/
def Obligations.StateHeldWithoutAWord : Prop :=
  ∀ (s : State) (k : Nat), s.input = [] → Host.Core.run Sys2Proof.core k s = .next s

/-- For every build, power-on gives initial units, empty traces and the operation index 0, with no buffer byte known; so
it does for the build of `State.reset` (70_reset R292, R293, R301; 30_encoding R85). The buffers' form is the model's (log
entry 2), and so is the input list, on which nothing is offered (log entry 3). -/
def Obligations.PowerOnStateIsInitial : Prop :=
  ∀ m : Fin 256, ∀ s : State, (s = State.resetWith m ∨ s = State.reset) →
    s.CleanEntry ∧ s.opIndex = 0 ∧ s.input = [] ∧
    ∀ i, s.frx.buf.find i = none ∧ s.ftx.buf.find i = none ∧ s.rrx.buf.find i = none ∧ s.rtx.buf.find i = none

/-- The reset input between operations clears every unit, retracts nothing from a port, emits nothing, leaves the words
not yet accepted, and leaves no buffer byte known (70_reset R291). The operation index stays (log entry 5);
the input list is log entry 3. -/
def Obligations.ResetInputClearsUnits : Prop :=
  ∀ (s : State) (rest : List InputEvent), s.input = .reset :: rest →
    ∃ t, step s = .next t ∧ t.UnitsInitial ∧ t.ports = s.ports ∧ t.input = rest ∧ t.maxPayload = s.maxPayload ∧
      t.opIndex = s.opIndex ∧
      ∀ i, t.frx.buf.find i = none ∧ t.ftx.buf.find i = none ∧ t.rrx.buf.find i = none ∧ t.rtx.buf.find i = none

/-- Reset during a word: the ports have accepted the first values of the word's output list, some number of them, in
emission order, and the units are initial whatever the word had written; the word is consumed (70_reset R294). How many is
a free value (log entry 4); the input list is log entry 3. -/
def Obligations.ResetCutsOutputShort : Prop :=
  ∀ (s : State) (w : Word) (rest : List InputEvent), s.input = .resetDuring w :: rest → s.Inv →
    ∃ t u es k, step s = .next t ∧
      decodedEffect (decode w) { s with input := rest, opIndex := s.opIndex + 1 } = .ok (u, es) ∧
      k ≤ es.length ∧ t.ports = s.ports.emitAll (es.take k) ∧ t.UnitsInitial ∧ t.input = rest

/-! ## Invariants and whole-machine rules -/

/-- The reset state meets the invariants of a launch state (10_state R34-R37). -/
def Obligations.ResetMeetsInvariant : Prop := State.reset.Inv

/-- Every step keeps the invariants of the four units, the canonical form of the buffers, the written cells below each
counter and the range of the build parameter, from every state that has them (10_state R34-R37). -/
def Obligations.StepKeepsInvariant : Prop := ∀ s t : State, s.Inv → step s = .next t → t.Inv

/-- From every state that meets the invariants every step answers a next state: nothing traps, stops or refuses, and no
index written is out of range (60_exceptions R260, 20_memory R51). -/
def Obligations.StepNeverStops : Prop := ∀ s : State, s.Inv → ∃ t, step s = .next t

/-- No step changes `MAX_PAYLOAD` (10_state R23). -/
def Obligations.BuildParameterNeverChanges : Prop :=
  ∀ s t : State, step s = .next t → t.maxPayload = s.maxPayload

/-- No step retracts or changes a value a port has carried (30_encoding R85). -/
def Obligations.PortTracesOnlyGrow : Prop :=
  ∀ s t : State, step s = .next t →
    s.ports.fw <+: t.ports.fw ∧ s.ports.rw <+: t.ports.rw ∧ s.ports.dlv <+: t.ports.dlv ∧
    s.ports.diag <+: t.ports.diag ∧ s.ports.res <+: t.ports.res

/-- Every step emits at most one diagnostic (60_exceptions R263). -/
def Obligations.AtMostOneDiagnosticPerStep : Prop :=
  ∀ s t : State, step s = .next t → t.ports.diag.length ≤ s.ports.diag.length + 1

/-- How many values an operation emits: `FTXE` at most 3 + 255 + 1, `RTXE` at most 65 + 1, every other at most one
(70_reset R299). -/
def Obligations.OutputCountsAreBounded : Prop :=
  ∀ (i : Instr) (s u : State) (es : List Emission), s.Inv → instrEffect i s = .ok (u, es) →
    es.length ≤ (match i with
      | .ftxe => 259
      | .rtxe => 66
      | _ => 1)

/-- A delivery a step adds carries a payload of at most `MAX_PAYLOAD` bytes, or at most 62 (30_encoding R86). -/
def Obligations.DeliveriesAreBounded : Prop :=
  ∀ s t : State, s.Inv → step s = .next t →
    ∃ added, t.ports.dlv = s.ports.dlv ++ added ∧
      (∀ c p, .frFrame c p ∈ added → p.length ≤ s.maxPayload.val) ∧
      (∀ m p, .rlPacket m p ∈ added → p.length ≤ 62)

/-- Each unit's record and what it puts on each port depend only on the operations addressed to it, whatever operations
of other units stand between them (60_exceptions R274; 41_framer_rx R113; 43_rl_rx R182). -/
def Obligations.UnitsDependOnlyOnOwnOperations : Prop :=
  ∀ (unit : UnitId) (s : State) (is : List Instr), s.Inv →
    ∃ t v, runToEnd (s.offering is) = .next t ∧
      runToEnd (s.offering (is.filter (addresses unit))) = .next v ∧ State.AgreeOn unit t v

/-! ## StuffedFramer receive -/

/-- `FRX` in phase AF (41_framer_rx R101). -/
def Obligations.FrxAwaitsFlag : Prop :=
  ∀ (s : State) (b : Byte), s.frx.phase = .af →
    (b = 0x7E → exec (.frx b) s = .next { s with frx := { s.frx with phase := .ac } }) ∧
    (b ≠ 0x7E → exec (.frx b) s =
      .next { s with ports := { s.ports with diag := s.ports.diag ++ [⟨.frGarbage, b⟩] } })

/-- `FRX` in phase AC (41_framer_rx R102). -/
def Obligations.FrxTakesCommand : Prop :=
  ∀ (s : State) (b : Byte), s.frx.phase = .ac →
    exec (.frx b) s = .next { s with frx := { s.frx with cmd := b, phase := .al } }

/-- `FRX` in phase AL: overflow, a complete empty frame, or the start of the payload (41_framer_rx R103). -/
def Obligations.FrxTakesLength : Prop :=
  ∀ (s : State) (b : Byte), s.frx.phase = .al →
    exec (.frx b) s =
      if s.maxPayload.val < b.toNat then
        .next { s with
          frx := { s.frx with phase := .af, cmd := 0, len := 0, fill := 0 }
          ports := { s.ports with diag := s.ports.diag ++ [⟨.frOverflow, b⟩] } }
      else if b = 0 then
        .next { s with
          frx := { s.frx with phase := .af, cmd := 0, len := 0, fill := 0 }
          ports := { s.ports with dlv := s.ports.dlv ++ [.frFrame s.frx.cmd []] } }
      else .next { s with frx := { s.frx with len := b, fill := 0, phase := .ap } }

/-- `FRX` in phase AP before the last payload byte stores the byte at `fill` (41_framer_rx R104). -/
def Obligations.FrxStoresPayloadByte : Prop :=
  ∀ (s : State) (b : Byte), s.frx.phase = .ap → s.frx.fill.toNat < s.maxPayload.val →
    s.frx.fill + 1 ≠ s.frx.len →
    exec (.frx b) s =
      .next { s with frx := { s.frx with buf := s.frx.buf.put s.frx.fill.toNat b, fill := s.frx.fill + 1 } }

/-- `FRX` in phase AP with the last payload byte completes the frame: the unit is cleared, and the unstuffed payload is
delivered or its first violation reported (41_framer_rx R105). -/
def Obligations.FrxCompletesFrame : Prop :=
  ∀ (s : State) (b : Byte), s.frx.phase = .ap → s.frx.fill.toNat < s.maxPayload.val →
    s.frx.fill + 1 = s.frx.len →
    let frx : Frx :=
      { phase := .af, cmd := 0, len := 0, fill := 0, buf := s.frx.buf.put s.frx.fill.toNat b }
    exec (.frx b) s =
      match unstuff (s.frx.buf.readSeq (s.unwritten .frx) 0 s.frx.fill.toNat ++ [b]) with
      | .ok p =>
        .next { s with frx := frx, ports := { s.ports with dlv := s.ports.dlv ++ [.frFrame s.frx.cmd p] } }
      | .error (.illegalFlag i) =>
        .next { s with
          frx := frx
          ports := { s.ports with diag := s.ports.diag ++ [⟨.frIllegalFlag, BitVec.ofNat 8 i⟩] } }
      | .error (.badEscape i) =>
        .next { s with
          frx := frx
          ports := { s.ports with diag := s.ports.diag ++ [⟨.frBadEscape, BitVec.ofNat 8 i⟩] } }

/-- A payload byte for an index the unit's buffer does not have stops the model by name: a state that breaks R34 or R36
(20_memory R51, 93 X6). The stop is the model's choice (log entry 6). -/
def Obligations.OutsideBufferWriteStops : Prop :=
  (∀ (s : State) (b : Byte), s.frx.phase = .ap → s.maxPayload.val ≤ s.frx.fill.toNat →
    exec (.frx b) s = .fault (.outsideBuffer .frx) ∧ ¬ s.Inv) ∧
  (∀ (s : State) (b : Byte), s.rrx.phase = .body → b ≠ 0 → 63 ≤ s.rrx.fill.toNat →
    exec (.rrx b) s = .fault (.outsideBuffer .rrx) ∧ ¬ s.Inv)

/-- A stuffed payload with a flag byte anywhere in it is rejected with the index of the first one
(41_framer_rx R115). -/
def Obligations.UnstuffReportsFirstFlag : Prop :=
  ∀ s : List Byte, (0x7E : Byte) ∈ s → unstuff s = .error (.illegalFlag (s.idxOf 0x7E))

/-- A stuffed payload with no flag byte is accepted, with the length bounds of R108, or it ends in an escape, which is
reported at its index (41_framer_rx R106, R108, R109). -/
def Obligations.UnstuffWithoutFlag : Prop :=
  ∀ s : List Byte, (0x7E : Byte) ∉ s →
    (∃ p, unstuff s = .ok p ∧ (s.length + 1) / 2 ≤ p.length ∧ p.length ≤ s.length) ∨
    (s.getLast? = some 0x7D ∧ unstuff s = .error (.badEscape (s.length - 1)))

/-- From phase AF every non-flag byte emits one `FR_GARBAGE` event, whatever their number, and leaves the unit as it was
(41_framer_rx R114). -/
def Obligations.GarbageIsReportedByteByByte : Prop :=
  ∀ (s : State) (g : List Byte), s.frx.phase = .af → (0x7E : Byte) ∉ g →
    ∃ t, runToEnd (s.offering (g.map .frx)) = .next t ∧ t.frx = s.frx ∧
      t.ports = { s.ports with diag := s.ports.diag ++ g.map (fun b => ⟨.frGarbage, b⟩) }

/-! ## StuffedFramer transmit -/

/-- `FTXB`: its encoding, and that it begins a frame, reporting one that was not ended (42_framer_tx R141). -/
def Obligations.FtxbBeginsFrame : Prop :=
  ∀ (s : State) (c : Byte),
    ⟨.ftxb, 0x3000, 0xFF00⟩ ∈ opRows ∧ decode (0x3000 ||| c.zeroExtend 16) = .op (.ftxb c) ∧
    exec (.ftxb c) s = .next { s with
      ftx := { s.ftx with active := true, cmd := c, n := 0, overflowed := false }
      ports := if s.ftx.active then { s.ports with diag := s.ports.diag ++ [⟨.txSeq, 0x30⟩] } else s.ports }

/-- `FTXD`: its encoding, and that it appends a byte, marks a full frame, or reports that no frame is begun
(42_framer_tx R142). -/
def Obligations.FtxdAppendsByte : Prop :=
  ∀ (s : State) (b : Byte),
    ⟨.ftxd, 0x4000, 0xFF00⟩ ∈ opRows ∧ decode (0x4000 ||| b.zeroExtend 16) = .op (.ftxd b) ∧
    exec (.ftxd b) s =
      if s.ftx.active = false then
        .next { s with ports := { s.ports with diag := s.ports.diag ++ [⟨.txSeq, 0x40⟩] } }
      else if s.ftx.n.toNat < s.maxPayload.val then
        .next { s with ftx := { s.ftx with buf := s.ftx.buf.put s.ftx.n.toNat b, n := s.ftx.n + 1 } }
      else .next { s with ftx := { s.ftx with overflowed := true } }

/-- `FTXE`: its encoding, and that it checks the frame in the order of R147, emits all of it or nothing, gives exactly one result, and clears the
unit (42_framer_tx R143). -/
def Obligations.FtxeEndsFrame : Prop :=
  ∀ s : State,
    let d := s.ftx.buf.readSeq (s.unwritten .ftx) 0 s.ftx.n.toNat
    let ftx : Ftx := { s.ftx with active := false, cmd := 0, n := 0, overflowed := false }
    let refused (code : ResCode) (info : Byte) : State := { s with
      ftx := ftx
      ports := { s.ports with
        diag := s.ports.diag ++ [⟨.frCapacity, info⟩], res := s.ports.res ++ [⟨.fr, code⟩] } }
    ⟨.ftxe, 0x5000, 0xFFFF⟩ ∈ opRows ∧ decode 0x5000 = .op .ftxe ∧
    exec .ftxe s =
      if s.ftx.active = false then
        .next { s with ports := { s.ports with
          diag := s.ports.diag ++ [⟨.txSeq, 0x50⟩], res := s.ports.res ++ [⟨.fr, .notBegun⟩] } }
      else if s.ftx.n = 0 then .next (refused .empty 1)
      else if s.ftx.overflowed then .next (refused .tooLong 2)
      else if 255 < (stuff d).length then .next (refused .stuffedTooLong 3)
      else .next { s with
        ftx := ftx
        ports := { s.ports with
          fw := s.ports.fw ++ 0x7E :: s.ftx.cmd :: BitVec.ofNat 8 (stuff d).length :: stuff d
          res := s.ports.res ++ [⟨.fr, .ok⟩] } }

/-- Unstuffing a stuffed payload gives the payload, whatever bytes it holds (42_framer_tx R149). -/
def Obligations.UnstuffUndoesStuff : Prop := ∀ d : List Byte, unstuff (stuff d) = .ok d

/-- A stuffed payload holds no flag byte, and every escape in it is followed by 0x5E or 0x5D (30_encoding R83). -/
def Obligations.StuffedPayloadShape : Prop :=
  ∀ d : List Byte, (0x7E : Byte) ∉ stuff d ∧
    ∀ i : Nat, (stuff d)[i]? = some 0x7D → (stuff d)[i + 1]? = some 0x5E ∨ (stuff d)[i + 1]? = some 0x5D

/-- The stuffed length is the payload's length and one more for each flag or escape in it, at most twice the length
(42_framer_tx R145). -/
def Obligations.StuffedLengthCounts : Prop :=
  ∀ d : List Byte, slen d = d.length + d.countP (fun x => x == 0x7E || x == 0x7D) ∧ slen d ≤ 2 * d.length

/-- The bytes of a frame fed to a receiver in phase AF deliver the frame with no diagnostic and leave the receiver
initial, if `MAX_PAYLOAD` is at least the stuffed length; if it is less, the length byte is an overflow
(42_framer_tx R150). -/
def Obligations.FramerLoopback : Prop :=
  ∀ (s : State) (c : Byte) (d : List Byte), s.frx.phase = .af → slen d ≤ 255 →
    (slen d ≤ s.maxPayload.val →
      ∃ t, runToEnd (s.offering ((frame c d).map .frx)) = .next t ∧ t.frx.Initial ∧
        t.ports = { s.ports with dlv := s.ports.dlv ++ [.frFrame c d] }) ∧
    (s.maxPayload.val < slen d →
      ∃ t, runToEnd (s.offering (((frame c d).take 3).map .frx)) = .next t ∧ t.frx.Initial ∧
        t.ports = { s.ports with diag := s.ports.diag ++ [⟨.frOverflow, BitVec.ofNat 8 (slen d)⟩] })

/-! ## RunLengthPacketizer receive -/

/-- `RRX` in phase IDLE (43_rl_rx R171). -/
def Obligations.RrxAwaitsBoundary : Prop :=
  ∀ (s : State) (b : Byte), s.rrx.phase = .idle →
    (b = 0 → exec (.rrx b) s = .next { s with rrx := { s.rrx with phase := .len } }) ∧
    (b ≠ 0 → exec (.rrx b) s =
      .next { s with ports := { s.ports with diag := s.ports.diag ++ [⟨.rlUnexpected, b⟩] } })

/-- `RRX` in phase LEN: another boundary, a bad length, or the start of the body (43_rl_rx R172). -/
def Obligations.RrxTakesLength : Prop :=
  ∀ (s : State) (b : Byte), s.rrx.phase = .len →
    exec (.rrx b) s =
      if b = 0 then .next s
      else if b.extractLsb' 0 6 = (0 : BitVec 6) then
        .next { s with
          rrx := { s.rrx with phase := .idle, mode := 0, len := 0, fill := 0 }
          ports := { s.ports with diag := s.ports.diag ++ [⟨.rlBadLength, b⟩] } }
      else .next { s with
        rrx := { s.rrx with mode := b.extractLsb' 6 2, len := b.extractLsb' 0 6, fill := 0, phase := .body } }

/-- `RRX 0x00` in phase BODY: an early boundary discards the packet and begins the next one (43_rl_rx R175). -/
def Obligations.RrxEarlyBoundaryDiscards : Prop :=
  ∀ s : State, s.rrx.phase = .body →
    exec (.rrx 0) s = .next { s with
      rrx := { s.rrx with phase := .len, mode := 0, len := 0, fill := 0 }
      ports := { s.ports with diag := s.ports.diag ++ [⟨.rlIncomplete, BitVec.ofNat 8 s.rrx.fill.toNat⟩] } }

/-- `RRX` in phase BODY with a non-zero byte before the last stores it at `fill` (43_rl_rx R173). -/
def Obligations.RrxStoresBodyByte : Prop :=
  ∀ (s : State) (b : Byte), s.rrx.phase = .body → b ≠ 0 → s.rrx.fill.toNat < 63 → s.rrx.fill + 1 ≠ s.rrx.len →
    exec (.rrx b) s =
      .next { s with rrx := { s.rrx with buf := s.rrx.buf.put s.rrx.fill.toNat b, fill := s.rrx.fill + 1 } }

/-- `RRX` in phase BODY with the last body byte completes the packet (43_rl_rx R174). -/
def Obligations.RrxCompletesPacket : Prop :=
  ∀ (s : State) (b : Byte), s.rrx.phase = .body → b ≠ 0 → s.rrx.fill.toNat < 63 → s.rrx.fill + 1 = s.rrx.len →
    let rrx : Rrx :=
      { phase := .idle, mode := 0, len := 0, fill := 0, buf := s.rrx.buf.put s.rrx.fill.toNat b }
    exec (.rrx b) s =
      match rlDecode (s.rrx.buf.readSeq (s.unwritten .rrx) 0 s.rrx.fill.toNat ++ [b]) with
      | .ok p =>
        .next { s with rrx := rrx, ports := { s.ports with dlv := s.ports.dlv ++ [.rlPacket s.rrx.mode p] } }
      | .error i =>
        .next { s with
          rrx := rrx
          ports := { s.ports with diag := s.ports.diag ++ [⟨.rlBadRun, BitVec.ofNat 8 i⟩] } }

/-- In every phase a 0x00 leaves `rrx` in phase LEN with `fill` 0 (43_rl_rx R180). -/
def Obligations.ZeroByteIsAlwaysBoundary : Prop :=
  ∀ s : State, s.rrx.Inv → ∃ t, exec (.rrx 0) s = .next t ∧ t.rrx.phase = .len ∧ t.rrx.fill = 0

/-- A receiver is in its initial state after every byte that delivers or reports anything but garbage, an unexpected
byte, or an early boundary, which leaves phase LEN (41_framer_rx R112, 43_rl_rx R181). -/
def Obligations.ReceiverInitialAfterFrame : Prop :=
  ∀ (s t : State) (b : Byte),
    (exec (.frx b) s = .next t →
      (t.ports.dlv ≠ s.ports.dlv ∨ (t.ports.diag ≠ s.ports.diag ∧ s.frx.phase ≠ .af)) → t.frx.Initial) ∧
    (exec (.rrx b) s = .next t →
      (t.ports.dlv ≠ s.ports.dlv ∨ (t.ports.diag ≠ s.ports.diag ∧ s.rrx.phase ≠ .idle ∧ b ≠ 0) → t.rrx.Initial) ∧
      (t.ports.diag ≠ s.ports.diag ∧ b = 0 →
        t.rrx.phase = .len ∧ t.rrx.mode = 0 ∧ t.rrx.len = 0 ∧ t.rrx.fill = 0))

/-- The in-place form of the run-length decode returns what the other returns, on every body (43_rl_rx R177). -/
def Obligations.InplaceDecodeEqualsDecode : Prop :=
  ∀ body : List Byte, rlDecodeInplace body body.length = rlDecode body

/-- A decoded payload is one byte shorter than its body (43_rl_rx R179). -/
def Obligations.DecodedPayloadLength : Prop :=
  ∀ body p : List Byte, body ≠ [] → rlDecode body = .ok p → p.length + 1 = body.length

/-! ## RunLengthPacketizer transmit -/

/-- `RTXB`: its encoding, and that it begins a packet, reporting one that was not ended (44_rl_tx R211). -/
def Obligations.RtxbBeginsPacket : Prop :=
  ∀ (s : State) (m : Mode),
    ⟨.rtxb, 0x6000, 0xFCFF⟩ ∈ opRows ∧ decode (0x6000 ||| m.zeroExtend 16 <<< 8) = .op (.rtxb m) ∧
    exec (.rtxb m) s = .next { s with
      rtx := { s.rtx with active := true, mode := m, n := 0, overflowed := false }
      ports := if s.rtx.active then
          { s.ports with diag := s.ports.diag ++ [⟨.txSeq, 0x60 ||| m.zeroExtend 8⟩] }
        else s.ports }

/-- `RTXD`: its encoding, and that it appends a byte, marks a full packet, or reports that no packet is begun
(44_rl_tx R212). -/
def Obligations.RtxdAppendsByte : Prop :=
  ∀ (s : State) (b : Byte),
    ⟨.rtxd, 0x7000, 0xFF00⟩ ∈ opRows ∧ decode (0x7000 ||| b.zeroExtend 16) = .op (.rtxd b) ∧
    exec (.rtxd b) s =
      if s.rtx.active = false then
        .next { s with ports := { s.ports with diag := s.ports.diag ++ [⟨.txSeq, 0x70⟩] } }
      else if s.rtx.n.toNat < 62 then
        .next { s with rtx := { s.rtx with buf := s.rtx.buf.put s.rtx.n.toNat b, n := s.rtx.n + 1 } }
      else .next { s with rtx := { s.rtx with overflowed := true } }

/-- `RTXE`: its encoding, and that it checks the packet in the order of R216, emits all of it or nothing, gives exactly one result, and clears the
unit (44_rl_tx R213). -/
def Obligations.RtxeEndsPacket : Prop :=
  ∀ s : State,
    let d := s.rtx.buf.readSeq (s.unwritten .rtx) 0 s.rtx.n.toNat
    let rtx : Rtx := { s.rtx with active := false, mode := 0, n := 0, overflowed := false }
    let refused (code : ResCode) (info : Byte) : State := { s with
      rtx := rtx
      ports := { s.ports with
        diag := s.ports.diag ++ [⟨.rlCapacity, info⟩], res := s.ports.res ++ [⟨.rl, code⟩] } }
    ⟨.rtxe, 0x8000, 0xFFFF⟩ ∈ opRows ∧ decode 0x8000 = .op .rtxe ∧
    exec .rtxe s =
      if s.rtx.active = false then
        .next { s with ports := { s.ports with
          diag := s.ports.diag ++ [⟨.txSeq, 0x80⟩], res := s.ports.res ++ [⟨.rl, .notBegun⟩] } }
      else if s.rtx.n = 0 then .next (refused .empty 1)
      else if s.rtx.overflowed then .next (refused .tooLong 2)
      else .next { s with
        rtx := rtx
        ports := { s.ports with
          rw := s.ports.rw ++ rlEncode s.rtx.mode d
          res := s.ports.res ++ [⟨.rl, .ok⟩] } }

/-- The shape of an encoded packet (44_rl_tx R215). -/
def Obligations.EncodedPacketShape : Prop :=
  ∀ (m : Mode) (d : List Byte), 1 ≤ d.length → d.length ≤ 62 →
    ∃ h body, rlEncode m d = 0x00 :: h :: body ∧
      h = (m.zeroExtend 8 <<< 6) ||| BitVec.ofNat 8 (d.length + 1) ∧ h ≠ 0 ∧ h.extractLsb' 0 6 ≠ (0 : BitVec 6) ∧
      body.length = d.length + 1 ∧ (∀ x ∈ body, x ≠ 0) ∧ (rlEncode m d).length = d.length + 3

/-- Decoding the body of an encoded packet gives the payload, and its length/mode byte holds the body's length and the
mode (44_rl_tx R217). -/
def Obligations.RunLengthRoundTrip : Prop :=
  ∀ (m : Mode) (d : List Byte) (h : Byte) (body : List Byte), 1 ≤ d.length → d.length ≤ 62 →
    rlEncode m d = 0x00 :: h :: body →
    (h.extractLsb' 0 6 : BitVec 6).toNat = body.length ∧ h.extractLsb' 6 2 = m ∧ rlDecode body = .ok d

/-- The bytes of a packet fed to a receiver in phase IDLE or LEN deliver the packet with no diagnostic and leave the
receiver initial (44_rl_tx R218). -/
def Obligations.PacketLoopback : Prop :=
  ∀ (s : State) (m : Mode) (d : List Byte), s.rrx.phase = .idle ∨ s.rrx.phase = .len →
    1 ≤ d.length → d.length ≤ 62 →
    ∃ t, runToEnd (s.offering ((rlEncode m d).map .rrx)) = .next t ∧ t.rrx.Initial ∧
      t.ports = { s.ports with dlv := s.ports.dlv ++ [.rlPacket m d] }

/-! ## Control -/

/-- `NOP` is the word 0x0000, the words 0x0001 to 0x0FFF are illegal, and it does nothing (45_control R240). -/
def Obligations.NopDoesNothing : Prop :=
  ⟨.nop, 0x0000, 0xFFFF⟩ ∈ opRows ∧ decode 0x0000 = .op .nop ∧
  (∀ w : Word, 0x0001 ≤ w.toNat → w.toNat ≤ 0x0FFF → decode w = .illegal (w.extractLsb' 8 8)) ∧
  ∀ s : State, exec .nop s = .next s

/-- `CLR`: its encoding, and that it clears the units its mask selects, silently, and writes no buffer
(45_control R242). -/
def Obligations.ClrClearsSelectedUnits : Prop :=
  ∀ (s : State) (t : UnitMask),
    ⟨.clr, 0x9000, 0xF0FF⟩ ∈ opRows ∧ decode (0x9000 ||| t.zeroExtend 16 <<< 8) = .op (.clr t) ∧
    exec (.clr t) s = .next { s with
      frx := if t.getLsbD 0 then { s.frx with phase := .af, cmd := 0, len := 0, fill := 0 } else s.frx
      ftx := if t.getLsbD 1 then { s.ftx with active := false, cmd := 0, n := 0, overflowed := false } else s.ftx
      rrx := if t.getLsbD 2 then { s.rrx with phase := .idle, mode := 0, len := 0, fill := 0 } else s.rrx
      rtx := if t.getLsbD 3 then { s.rtx with active := false, mode := 0, n := 0, overflowed := false } else s.rtx }

/-- `RST`, which is `CLR 0xF`, leaves the units in the state the reset input leaves them in, and the traces as they were
(45_control R243). -/
def Obligations.RstClearsAsResetDoes : Prop :=
  ∀ s : State, expand .rst = [.clr 0xF] ∧ decode 0x9F00 = .op (.clr 0xF) ∧
    ∃ t v, exec (.clr 0xF) s = .next t ∧ step { s with input := [.reset] } = .next v ∧
      t.UnitsInitial ∧ v.UnitsInitial ∧ t.ports = s.ports ∧ v.ports = s.ports

/-! ## Frames -/

/-- The frame of `FRX`: only `frx`, `DLV` and `DIAG` change, and of its buffer only the byte at `fill` in phase AP
(41_framer_rx R100, R104). -/
def Obligations.FrxFrame : Prop :=
  ∀ (s t : State) (b : Byte), exec (.frx b) s = .next t →
    t.ftx = s.ftx ∧ t.rrx = s.rrx ∧ t.rtx = s.rtx ∧ t.maxPayload = s.maxPayload ∧ t.input = s.input ∧
    t.opIndex = s.opIndex ∧ t.resets = s.resets ∧
    t.ports.fw = s.ports.fw ∧ t.ports.rw = s.ports.rw ∧ t.ports.res = s.ports.res ∧
    ∀ i, (s.frx.phase = .ap → i ≠ s.frx.fill.toNat) →
      t.frx.buf.read (t.unwritten .frx) i = s.frx.buf.read (s.unwritten .frx) i

/-- The frame of `RRX`: only `rrx`, `DLV` and `DIAG` change, and of its buffer only the byte at `fill` where a non-zero
byte comes in phase BODY (43_rl_rx R170, R173). -/
def Obligations.RrxFrame : Prop :=
  ∀ (s t : State) (b : Byte), exec (.rrx b) s = .next t →
    t.frx = s.frx ∧ t.ftx = s.ftx ∧ t.rtx = s.rtx ∧ t.maxPayload = s.maxPayload ∧ t.input = s.input ∧
    t.opIndex = s.opIndex ∧ t.resets = s.resets ∧
    t.ports.fw = s.ports.fw ∧ t.ports.rw = s.ports.rw ∧ t.ports.res = s.ports.res ∧
    ∀ i, (s.rrx.phase = .body ∧ b ≠ 0 → i ≠ s.rrx.fill.toNat) →
      t.rrx.buf.read (t.unwritten .rrx) i = s.rrx.buf.read (s.unwritten .rrx) i

/-- The frame of `FTXB`, `FTXD` and `FTXE`: only `ftx`, `FW`, `DIAG` and `RES` change, `FW` and `RES` by `FTXE` alone,
and of the buffer only the byte at `n` where `FTXD` stores (42_framer_tx R141, R142, R143). -/
def Obligations.FtxFrame : Prop :=
  ∀ (s t : State) (i : Instr), (∃ b, i = .ftxb b ∨ i = .ftxd b ∨ i = .ftxe) → exec i s = .next t →
    t.frx = s.frx ∧ t.rrx = s.rrx ∧ t.rtx = s.rtx ∧ t.maxPayload = s.maxPayload ∧ t.input = s.input ∧
    t.opIndex = s.opIndex ∧ t.resets = s.resets ∧
    t.ports.rw = s.ports.rw ∧ t.ports.dlv = s.ports.dlv ∧
    (i ≠ .ftxe → t.ports.fw = s.ports.fw ∧ t.ports.res = s.ports.res) ∧
    (∀ b, i = .ftxd b → t.ftx.active = s.ftx.active ∧ t.ftx.cmd = s.ftx.cmd) ∧
    ∀ j, (∀ b, i = .ftxd b → s.ftx.active = true → s.ftx.n.toNat < s.maxPayload.val → j ≠ s.ftx.n.toNat) →
      t.ftx.buf.read (t.unwritten .ftx) j = s.ftx.buf.read (s.unwritten .ftx) j

/-- The frame of `RTXB`, `RTXD` and `RTXE`: only `rtx`, `RW`, `DIAG` and `RES` change, `RW` and `RES` by `RTXE` alone,
and of the buffer only the byte at `n` where `RTXD` stores (44_rl_tx R211, R212, R213). -/
def Obligations.RtxFrame : Prop :=
  ∀ (s t : State) (i : Instr), (∃ m b, i = .rtxb m ∨ i = .rtxd b ∨ i = .rtxe) → exec i s = .next t →
    t.frx = s.frx ∧ t.ftx = s.ftx ∧ t.rrx = s.rrx ∧ t.maxPayload = s.maxPayload ∧ t.input = s.input ∧
    t.opIndex = s.opIndex ∧ t.resets = s.resets ∧
    t.ports.fw = s.ports.fw ∧ t.ports.dlv = s.ports.dlv ∧
    (i ≠ .rtxe → t.ports.rw = s.ports.rw ∧ t.ports.res = s.ports.res) ∧
    (∀ b, i = .rtxd b → t.rtx.active = s.rtx.active ∧ t.rtx.mode = s.rtx.mode) ∧
    ∀ j, (∀ b, i = .rtxd b → s.rtx.active = true → s.rtx.n.toNat < 62 → j ≠ s.rtx.n.toNat) →
      t.rtx.buf.read (t.unwritten .rtx) j = s.rtx.buf.read (s.unwritten .rtx) j

/-- The frame of `NOP` and `CLR`: no port changes, no buffer byte, and no unit the mask does not select
(45_control R240, R242). -/
def Obligations.ControlFrame : Prop :=
  ∀ (s t : State) (i : Instr) (mask : UnitMask), (i = .nop ∧ mask = 0) ∨ i = .clr mask → exec i s = .next t →
    t.ports = s.ports ∧ t.maxPayload = s.maxPayload ∧ t.input = s.input ∧ t.opIndex = s.opIndex ∧
    t.resets = s.resets ∧
    (maskSelects mask .frx = false → t.frx = s.frx) ∧ (maskSelects mask .ftx = false → t.ftx = s.ftx) ∧
    (maskSelects mask .rrx = false → t.rrx = s.rrx) ∧ (maskSelects mask .rtx = false → t.rtx = s.rtx) ∧
    ∀ j, t.frx.buf.read (t.unwritten .frx) j = s.frx.buf.read (s.unwritten .frx) j ∧
      t.ftx.buf.read (t.unwritten .ftx) j = s.ftx.buf.read (s.unwritten .ftx) j ∧
      t.rrx.buf.read (t.unwritten .rrx) j = s.rrx.buf.read (s.unwritten .rrx) j ∧
      t.rtx.buf.read (t.unwritten .rtx) j = s.rtx.buf.read (s.unwritten .rtx) j
end

