-- ==== Sys2Proof/Laws/Memory.lean ====
section
/-! SUPPORT. The laws of buffer cells: read after write, the canonical form, and the prefix a counter fills. -/

namespace Sys2Proof.Machine

/-- A cell reads as last written, and a write leaves every other cell alone. -/
theorem Memory.find_put (m : Memory) (i j : Nat) (b : Byte) :
    (m.put i b).find j = if i = j then some b else m.find j := by
  induction m with
  | nil => simp [Memory.put, Memory.find]
  | cons c m ih =>
    obtain ⟨a, v⟩ := c
    simp only [Memory.put]
    split
    · simp [Memory.find]
    · split
      · rename_i h; subst h; simp only [Memory.find]; split <;> rfl
      · rename_i h
        simp only [Memory.find, ih]
        grind

/-- Writing a cell keeps the canonical form. -/
theorem Memory.wfFrom_put (depth lo : Nat) (m : Memory) (i : Nat) (b : Byte)
    (hm : Memory.wfFrom depth lo m = true) (hlo : lo ≤ i) (hi : i < depth) :
    Memory.wfFrom depth lo (m.put i b) = true := by
  induction m generalizing lo with
  | nil => simp [Memory.put, Memory.wfFrom, hlo, hi]
  | cons c m ih =>
    obtain ⟨a, v⟩ := c
    simp only [Memory.wfFrom, Bool.and_eq_true, decide_eq_true_eq] at hm
    simp only [Memory.put]
    split
    · simp only [Memory.wfFrom, Bool.and_eq_true, decide_eq_true_eq]; exact ⟨⟨hlo, hi⟩, ⟨by omega, hm.1.2⟩, hm.2⟩
    · split
      · simp only [Memory.wfFrom, Bool.and_eq_true, decide_eq_true_eq]
        rename_i h; subst h; exact ⟨⟨hlo, hi⟩, hm.2⟩
      · simp only [Memory.wfFrom, Bool.and_eq_true, decide_eq_true_eq]
        exact ⟨hm.1, ih _ hm.2 (by omega)⟩

/-- Writing a cell inside the buffer keeps the canonical form. -/
theorem Memory.wf_put (depth : Nat) (m : Memory) (i : Nat) (b : Byte) (hm : m.wf depth = true) (hi : i < depth) :
    (m.put i b).wf depth = true := Memory.wfFrom_put depth 0 m i b hm (Nat.zero_le i) hi

/-- Everything `store` can do. -/
theorem Memory.store_eq_ok (unit : UnitId) (depth : Nat) (m m' : Memory) (i : Nat) (b : Byte) :
    Memory.store unit depth m i b = .ok m' ↔ i < depth ∧ m' = m.put i b := by
  unfold Memory.store
  split <;> simp_all [eq_comm]

theorem Memory.store_of_lt (unit : UnitId) (depth : Nat) (m : Memory) (i : Nat) (b : Byte) (h : i < depth) :
    Memory.store unit depth m i b = .ok (m.put i b) := by simp [Memory.store, h]

/-- A store keeps the canonical form. -/
theorem Memory.wf_store (unit : UnitId) (depth : Nat) (m m' : Memory) (i : Nat) (b : Byte)
    (hm : m.wf depth = true) (h : Memory.store unit depth m i b = .ok m') : m'.wf depth = true := by
  obtain ⟨hi, rfl⟩ := (Memory.store_eq_ok ..).1 h
  exact Memory.wf_put depth m i b hm hi

/-- Writing a sequence inside the buffer keeps the canonical form. -/
theorem Memory.wf_writeSeq (depth : Nat) (m : Memory) (i : Nat) (s : List Byte) (hm : m.wf depth = true)
    (hi : i + s.length ≤ depth) : (m.writeSeq i s).wf depth = true := by
  induction s generalizing m i with
  | nil => simpa [Memory.writeSeq] using hm
  | cons b s ih =>
    simp only [List.length_cons] at hi
    exact ih _ _ (Memory.wf_put depth m i b hm (by omega)) (by omega)

theorem Memory.wf_nil (depth : Nat) : Memory.wf depth [] = true := rfl

theorem Memory.read_put (free : Nat → Byte) (m : Memory) (i j : Nat) (b : Byte) :
    (m.put i b).read free j = if i = j then b else m.read free j := by
  simp only [Memory.read, Memory.find_put]; split <;> rfl

theorem Memory.holds_zero (m : Memory) : m.Holds 0 := fun _ h => absurd h (Nat.not_lt_zero _)

/-- Writing the cell at the counter extends the written cells by one. -/
theorem Memory.holds_put (m : Memory) (n : Nat) (b : Byte) (h : m.Holds n) : (m.put n b).Holds (n + 1) := by
  intro i hi
  rw [Memory.find_put]
  split
  · rfl
  · exact h i (by omega)

@[simp] theorem Memory.readSeq_length (free : Nat → Byte) (m : Memory) (i n : Nat) :
    (m.readSeq free i n).length = n := by simp [Memory.readSeq]

@[simp] theorem Memory.readSeq_zero (free : Nat → Byte) (m : Memory) (i : Nat) : m.readSeq free i 0 = [] := rfl

/-- The prefix read after a byte is written at the counter is the prefix read before, with the byte at its end. -/
theorem Memory.readSeq_put (free : Nat → Byte) (m : Memory) (n : Nat) (b : Byte) :
    (m.put n b).readSeq free 0 (n + 1) = m.readSeq free 0 n ++ [b] := by
  simp only [Memory.readSeq, List.range_succ, List.map_append, List.map_cons, List.map_nil, Nat.zero_add,
    Memory.read_put, if_true]
  congr 1
  apply List.map_congr_left
  intro j hj
  have := List.mem_range.1 hj
  rw [if_neg (by omega)]

/-- A prefix of written cells reads the same whatever the unwritten ones hold (10_state R27). -/
theorem Memory.readSeq_free (free free' : Nat → Byte) (m : Memory) (n : Nat) (h : m.Holds n) :
    m.readSeq free 0 n = m.readSeq free' 0 n := by
  apply List.map_congr_left
  intro j hj
  have hs := h j (List.mem_range.1 hj)
  obtain ⟨v, hv⟩ := Option.isSome_iff_exists.1 hs
  simp [Memory.read, hv]

end Sys2Proof.Machine
end

