-- ==== Sys2Proof/Laws/PerInstr.lean ====
section
/-! SUPPORT. Per instruction: the encoded word is selected by its own row (30_encoding R73). -/

namespace Sys2Proof.Laws.RowEncoding

/-- The word of an operation is selected by the row of its mnemonic, and that row stands in the operation map. -/
def Statement (i : Instr) : Prop := i.mnemonic.row.selects (encode i) = true ∧ i.mnemonic.row ∈ opRows

theorem nop : Statement .nop := by unfold Statement; decide

theorem frx (b : Byte) : Statement (.frx b) := by
  unfold Statement; exact ⟨by revert b; decide, by simp [Instr.mnemonic, Mnemonic.row, opRows]⟩

theorem rrx (b : Byte) : Statement (.rrx b) := by
  unfold Statement; exact ⟨by revert b; decide, by simp [Instr.mnemonic, Mnemonic.row, opRows]⟩

theorem ftxb (b : Byte) : Statement (.ftxb b) := by
  unfold Statement; exact ⟨by revert b; decide, by simp [Instr.mnemonic, Mnemonic.row, opRows]⟩

theorem ftxd (b : Byte) : Statement (.ftxd b) := by
  unfold Statement; exact ⟨by revert b; decide, by simp [Instr.mnemonic, Mnemonic.row, opRows]⟩

theorem ftxe : Statement .ftxe := by unfold Statement; decide

theorem rtxb (m : Mode) : Statement (.rtxb m) := by
  unfold Statement; exact ⟨by revert m; decide, by simp [Instr.mnemonic, Mnemonic.row, opRows]⟩

theorem rtxd (b : Byte) : Statement (.rtxd b) := by
  unfold Statement; exact ⟨by revert b; decide, by simp [Instr.mnemonic, Mnemonic.row, opRows]⟩

theorem rtxe : Statement .rtxe := by unfold Statement; decide

theorem clr (t : UnitMask) : Statement (.clr t) := by
  unfold Statement; exact ⟨by revert t; decide, by simp [Instr.mnemonic, Mnemonic.row, opRows]⟩

end Sys2Proof.Laws.RowEncoding
end

