-- ==== Sys2Proof/Laws/State.lean ====
section
/-! SUPPORT. One lemma per field per update of the state, the unit records and the ports, so that no later proof
unfolds a record update. -/

namespace Sys2Proof.Machine

@[simp] theorem State.setFrx_maxPayload (s : State) (u : Frx) : (s.setFrx u).maxPayload = s.maxPayload := rfl
@[simp] theorem State.setFrx_frx (s : State) (u : Frx) : (s.setFrx u).frx = u := rfl
@[simp] theorem State.setFrx_ftx (s : State) (u : Frx) : (s.setFrx u).ftx = s.ftx := rfl
@[simp] theorem State.setFrx_rrx (s : State) (u : Frx) : (s.setFrx u).rrx = s.rrx := rfl
@[simp] theorem State.setFrx_rtx (s : State) (u : Frx) : (s.setFrx u).rtx = s.rtx := rfl
@[simp] theorem State.setFrx_ports (s : State) (u : Frx) : (s.setFrx u).ports = s.ports := rfl
@[simp] theorem State.setFrx_input (s : State) (u : Frx) : (s.setFrx u).input = s.input := rfl
@[simp] theorem State.setFrx_opIndex (s : State) (u : Frx) : (s.setFrx u).opIndex = s.opIndex := rfl
@[simp] theorem State.setFrx_resets (s : State) (u : Frx) : (s.setFrx u).resets = s.resets := rfl

@[simp] theorem State.setFtx_maxPayload (s : State) (u : Ftx) : (s.setFtx u).maxPayload = s.maxPayload := rfl
@[simp] theorem State.setFtx_frx (s : State) (u : Ftx) : (s.setFtx u).frx = s.frx := rfl
@[simp] theorem State.setFtx_ftx (s : State) (u : Ftx) : (s.setFtx u).ftx = u := rfl
@[simp] theorem State.setFtx_rrx (s : State) (u : Ftx) : (s.setFtx u).rrx = s.rrx := rfl
@[simp] theorem State.setFtx_rtx (s : State) (u : Ftx) : (s.setFtx u).rtx = s.rtx := rfl
@[simp] theorem State.setFtx_ports (s : State) (u : Ftx) : (s.setFtx u).ports = s.ports := rfl
@[simp] theorem State.setFtx_input (s : State) (u : Ftx) : (s.setFtx u).input = s.input := rfl
@[simp] theorem State.setFtx_opIndex (s : State) (u : Ftx) : (s.setFtx u).opIndex = s.opIndex := rfl
@[simp] theorem State.setFtx_resets (s : State) (u : Ftx) : (s.setFtx u).resets = s.resets := rfl

@[simp] theorem State.setRrx_maxPayload (s : State) (u : Rrx) : (s.setRrx u).maxPayload = s.maxPayload := rfl
@[simp] theorem State.setRrx_frx (s : State) (u : Rrx) : (s.setRrx u).frx = s.frx := rfl
@[simp] theorem State.setRrx_ftx (s : State) (u : Rrx) : (s.setRrx u).ftx = s.ftx := rfl
@[simp] theorem State.setRrx_rrx (s : State) (u : Rrx) : (s.setRrx u).rrx = u := rfl
@[simp] theorem State.setRrx_rtx (s : State) (u : Rrx) : (s.setRrx u).rtx = s.rtx := rfl
@[simp] theorem State.setRrx_ports (s : State) (u : Rrx) : (s.setRrx u).ports = s.ports := rfl
@[simp] theorem State.setRrx_input (s : State) (u : Rrx) : (s.setRrx u).input = s.input := rfl
@[simp] theorem State.setRrx_opIndex (s : State) (u : Rrx) : (s.setRrx u).opIndex = s.opIndex := rfl
@[simp] theorem State.setRrx_resets (s : State) (u : Rrx) : (s.setRrx u).resets = s.resets := rfl

@[simp] theorem State.setRtx_maxPayload (s : State) (u : Rtx) : (s.setRtx u).maxPayload = s.maxPayload := rfl
@[simp] theorem State.setRtx_frx (s : State) (u : Rtx) : (s.setRtx u).frx = s.frx := rfl
@[simp] theorem State.setRtx_ftx (s : State) (u : Rtx) : (s.setRtx u).ftx = s.ftx := rfl
@[simp] theorem State.setRtx_rrx (s : State) (u : Rtx) : (s.setRtx u).rrx = s.rrx := rfl
@[simp] theorem State.setRtx_rtx (s : State) (u : Rtx) : (s.setRtx u).rtx = u := rfl
@[simp] theorem State.setRtx_ports (s : State) (u : Rtx) : (s.setRtx u).ports = s.ports := rfl
@[simp] theorem State.setRtx_input (s : State) (u : Rtx) : (s.setRtx u).input = s.input := rfl
@[simp] theorem State.setRtx_opIndex (s : State) (u : Rtx) : (s.setRtx u).opIndex = s.opIndex := rfl
@[simp] theorem State.setRtx_resets (s : State) (u : Rtx) : (s.setRtx u).resets = s.resets := rfl

@[simp] theorem State.emitAll_maxPayload (s : State) (es : List Emission) : (s.emitAll es).maxPayload = s.maxPayload := rfl
@[simp] theorem State.emitAll_frx (s : State) (es : List Emission) : (s.emitAll es).frx = s.frx := rfl
@[simp] theorem State.emitAll_ftx (s : State) (es : List Emission) : (s.emitAll es).ftx = s.ftx := rfl
@[simp] theorem State.emitAll_rrx (s : State) (es : List Emission) : (s.emitAll es).rrx = s.rrx := rfl
@[simp] theorem State.emitAll_rtx (s : State) (es : List Emission) : (s.emitAll es).rtx = s.rtx := rfl
@[simp] theorem State.emitAll_ports (s : State) (es : List Emission) : (s.emitAll es).ports = s.ports.emitAll es := rfl
@[simp] theorem State.emitAll_input (s : State) (es : List Emission) : (s.emitAll es).input = s.input := rfl
@[simp] theorem State.emitAll_opIndex (s : State) (es : List Emission) : (s.emitAll es).opIndex = s.opIndex := rfl
@[simp] theorem State.emitAll_resets (s : State) (es : List Emission) : (s.emitAll es).resets = s.resets := rfl

@[simp] theorem State.accept_maxPayload (s : State) (rest : List InputEvent) : (s.accept rest).maxPayload = s.maxPayload := rfl
@[simp] theorem State.accept_frx (s : State) (rest : List InputEvent) : (s.accept rest).frx = s.frx := rfl
@[simp] theorem State.accept_ftx (s : State) (rest : List InputEvent) : (s.accept rest).ftx = s.ftx := rfl
@[simp] theorem State.accept_rrx (s : State) (rest : List InputEvent) : (s.accept rest).rrx = s.rrx := rfl
@[simp] theorem State.accept_rtx (s : State) (rest : List InputEvent) : (s.accept rest).rtx = s.rtx := rfl
@[simp] theorem State.accept_ports (s : State) (rest : List InputEvent) : (s.accept rest).ports = s.ports := rfl
@[simp] theorem State.accept_input (s : State) (rest : List InputEvent) : (s.accept rest).input = rest := rfl
@[simp] theorem State.accept_opIndex (s : State) (rest : List InputEvent) : (s.accept rest).opIndex = s.opIndex + 1 := rfl
@[simp] theorem State.accept_resets (s : State) (rest : List InputEvent) : (s.accept rest).resets = s.resets := rfl

@[simp] theorem State.assertReset_maxPayload (s : State)  : (s.assertReset).maxPayload = s.maxPayload := rfl
@[simp] theorem State.assertReset_frx (s : State)  : (s.assertReset).frx = { s.frx.clear with buf := [] } := rfl
@[simp] theorem State.assertReset_ftx (s : State)  : (s.assertReset).ftx = { s.ftx.clear with buf := [] } := rfl
@[simp] theorem State.assertReset_rrx (s : State)  : (s.assertReset).rrx = { s.rrx.clear with buf := [] } := rfl
@[simp] theorem State.assertReset_rtx (s : State)  : (s.assertReset).rtx = { s.rtx.clear with buf := [] } := rfl
@[simp] theorem State.assertReset_ports (s : State)  : (s.assertReset).ports = s.ports := rfl
@[simp] theorem State.assertReset_input (s : State)  : (s.assertReset).input = s.input := rfl
@[simp] theorem State.assertReset_opIndex (s : State)  : (s.assertReset).opIndex = s.opIndex := rfl
@[simp] theorem State.assertReset_resets (s : State)  : (s.assertReset).resets = s.resets + 1 := rfl

@[simp] theorem State.clearUnits_maxPayload (s : State) (t : UnitMask) : (s.clearUnits t).maxPayload = s.maxPayload := rfl
@[simp] theorem State.clearUnits_frx (s : State) (t : UnitMask) : (s.clearUnits t).frx = if maskSelects t .frx then s.frx.clear else s.frx := rfl
@[simp] theorem State.clearUnits_ftx (s : State) (t : UnitMask) : (s.clearUnits t).ftx = if maskSelects t .ftx then s.ftx.clear else s.ftx := rfl
@[simp] theorem State.clearUnits_rrx (s : State) (t : UnitMask) : (s.clearUnits t).rrx = if maskSelects t .rrx then s.rrx.clear else s.rrx := rfl
@[simp] theorem State.clearUnits_rtx (s : State) (t : UnitMask) : (s.clearUnits t).rtx = if maskSelects t .rtx then s.rtx.clear else s.rtx := rfl
@[simp] theorem State.clearUnits_ports (s : State) (t : UnitMask) : (s.clearUnits t).ports = s.ports := rfl
@[simp] theorem State.clearUnits_input (s : State) (t : UnitMask) : (s.clearUnits t).input = s.input := rfl
@[simp] theorem State.clearUnits_opIndex (s : State) (t : UnitMask) : (s.clearUnits t).opIndex = s.opIndex := rfl
@[simp] theorem State.clearUnits_resets (s : State) (t : UnitMask) : (s.clearUnits t).resets = s.resets := rfl

@[simp] theorem Frx.clear_phase (u : Frx) : u.clear.phase = .af := rfl
@[simp] theorem Frx.clear_cmd (u : Frx) : u.clear.cmd = 0 := rfl
@[simp] theorem Frx.clear_len (u : Frx) : u.clear.len = 0 := rfl
@[simp] theorem Frx.clear_fill (u : Frx) : u.clear.fill = 0 := rfl
@[simp] theorem Frx.clear_buf (u : Frx) : u.clear.buf = u.buf := rfl

@[simp] theorem Ftx.clear_active (u : Ftx) : u.clear.active = false := rfl
@[simp] theorem Ftx.clear_cmd (u : Ftx) : u.clear.cmd = 0 := rfl
@[simp] theorem Ftx.clear_n (u : Ftx) : u.clear.n = 0 := rfl
@[simp] theorem Ftx.clear_overflowed (u : Ftx) : u.clear.overflowed = false := rfl
@[simp] theorem Ftx.clear_buf (u : Ftx) : u.clear.buf = u.buf := rfl

@[simp] theorem Rrx.clear_phase (u : Rrx) : u.clear.phase = .idle := rfl
@[simp] theorem Rrx.clear_mode (u : Rrx) : u.clear.mode = 0 := rfl
@[simp] theorem Rrx.clear_len (u : Rrx) : u.clear.len = 0 := rfl
@[simp] theorem Rrx.clear_fill (u : Rrx) : u.clear.fill = 0 := rfl
@[simp] theorem Rrx.clear_buf (u : Rrx) : u.clear.buf = u.buf := rfl

@[simp] theorem Rtx.clear_active (u : Rtx) : u.clear.active = false := rfl
@[simp] theorem Rtx.clear_mode (u : Rtx) : u.clear.mode = 0 := rfl
@[simp] theorem Rtx.clear_n (u : Rtx) : u.clear.n = 0 := rfl
@[simp] theorem Rtx.clear_overflowed (u : Rtx) : u.clear.overflowed = false := rfl
@[simp] theorem Rtx.clear_buf (u : Rtx) : u.clear.buf = u.buf := rfl

@[simp] theorem Frx.recover_fst (tag : DiagTag) (info : Byte) (u : Frx) : (u.recover tag info).1 = u.clear := rfl
@[simp] theorem Frx.recover_snd (tag : DiagTag) (info : Byte) (u : Frx) :
    (u.recover tag info).2 = [diag tag info] := rfl
@[simp] theorem Rrx.recover_fst (tag : DiagTag) (info : Byte) (u : Rrx) : (u.recover tag info).1 = u.clear := rfl
@[simp] theorem Rrx.recover_snd (tag : DiagTag) (info : Byte) (u : Rrx) :
    (u.recover tag info).2 = [diag tag info] := rfl

theorem Ports.emit_fw (p : Ports) (e : Emission) : (p.emit e).fw = p.fw ++ e.onFw.toList := by
  cases e <;> simp [Ports.emit, Emission.onFw]

theorem Ports.emit_rw (p : Ports) (e : Emission) : (p.emit e).rw = p.rw ++ e.onRw.toList := by
  cases e <;> simp [Ports.emit, Emission.onRw]

theorem Ports.emit_dlv (p : Ports) (e : Emission) : (p.emit e).dlv = p.dlv ++ e.onDlv.toList := by
  cases e <;> simp [Ports.emit, Emission.onDlv]

theorem Ports.emit_diag (p : Ports) (e : Emission) : (p.emit e).diag = p.diag ++ e.onDiag.toList := by
  cases e <;> simp [Ports.emit, Emission.onDiag]

theorem Ports.emit_res (p : Ports) (e : Emission) : (p.emit e).res = p.res ++ e.onRes.toList := by
  cases e <;> simp [Ports.emit, Emission.onRes]

/-- What a list of emissions appends to `FW`, in order (20_memory R59). -/
@[simp] theorem Ports.emitAll_fw (p : Ports) (es : List Emission) :
    (p.emitAll es).fw = p.fw ++ es.filterMap Emission.onFw := by
  induction es generalizing p with
  | nil => simp [Ports.emitAll]
  | cons e es ih =>
    have h := ih (p.emit e)
    simp only [Ports.emitAll, List.foldl_cons] at h ⊢
    rw [h, Ports.emit_fw]
    cases e <;> simp [List.filterMap_cons, Emission.onFw]

/-- What a list of emissions appends to `RW`, in order (20_memory R59). -/
@[simp] theorem Ports.emitAll_rw (p : Ports) (es : List Emission) :
    (p.emitAll es).rw = p.rw ++ es.filterMap Emission.onRw := by
  induction es generalizing p with
  | nil => simp [Ports.emitAll]
  | cons e es ih =>
    have h := ih (p.emit e)
    simp only [Ports.emitAll, List.foldl_cons] at h ⊢
    rw [h, Ports.emit_rw]
    cases e <;> simp [List.filterMap_cons, Emission.onRw]

/-- What a list of emissions appends to `DLV`, in order (20_memory R59). -/
@[simp] theorem Ports.emitAll_dlv (p : Ports) (es : List Emission) :
    (p.emitAll es).dlv = p.dlv ++ es.filterMap Emission.onDlv := by
  induction es generalizing p with
  | nil => simp [Ports.emitAll]
  | cons e es ih =>
    have h := ih (p.emit e)
    simp only [Ports.emitAll, List.foldl_cons] at h ⊢
    rw [h, Ports.emit_dlv]
    cases e <;> simp [List.filterMap_cons, Emission.onDlv]

/-- What a list of emissions appends to `DIAG`, in order (20_memory R59). -/
@[simp] theorem Ports.emitAll_diag (p : Ports) (es : List Emission) :
    (p.emitAll es).diag = p.diag ++ es.filterMap Emission.onDiag := by
  induction es generalizing p with
  | nil => simp [Ports.emitAll]
  | cons e es ih =>
    have h := ih (p.emit e)
    simp only [Ports.emitAll, List.foldl_cons] at h ⊢
    rw [h, Ports.emit_diag]
    cases e <;> simp [List.filterMap_cons, Emission.onDiag]

/-- What a list of emissions appends to `RES`, in order (20_memory R59). -/
@[simp] theorem Ports.emitAll_res (p : Ports) (es : List Emission) :
    (p.emitAll es).res = p.res ++ es.filterMap Emission.onRes := by
  induction es generalizing p with
  | nil => simp [Ports.emitAll]
  | cons e es ih =>
    have h := ih (p.emit e)
    simp only [Ports.emitAll, List.foldl_cons] at h ⊢
    rw [h, Ports.emit_res]
    cases e <;> simp [List.filterMap_cons, Emission.onRes]

@[simp] theorem Emission.onFw_comp_fw : Emission.onFw ∘ Emission.fw = fun b => some b := rfl
@[simp] theorem Emission.onRw_comp_fw : Emission.onRw ∘ Emission.fw = fun _ => none := rfl
@[simp] theorem Emission.onDlv_comp_fw : Emission.onDlv ∘ Emission.fw = fun _ => none := rfl
@[simp] theorem Emission.onDiag_comp_fw : Emission.onDiag ∘ Emission.fw = fun _ => none := rfl
@[simp] theorem Emission.onRes_comp_fw : Emission.onRes ∘ Emission.fw = fun _ => none := rfl
@[simp] theorem Emission.onFw_comp_rw : Emission.onFw ∘ Emission.rw = fun _ => none := rfl
@[simp] theorem Emission.onRw_comp_rw : Emission.onRw ∘ Emission.rw = fun b => some b := rfl
@[simp] theorem Emission.onDlv_comp_rw : Emission.onDlv ∘ Emission.rw = fun _ => none := rfl
@[simp] theorem Emission.onDiag_comp_rw : Emission.onDiag ∘ Emission.rw = fun _ => none := rfl
@[simp] theorem Emission.onRes_comp_rw : Emission.onRes ∘ Emission.rw = fun _ => none := rfl

theorem Ports.emitAll_append (p : Ports) (es fs : List Emission) :
    p.emitAll (es ++ fs) = (p.emitAll es).emitAll fs := by
  simp [Ports.emitAll, List.foldl_append]

/-- Wire bytes of the framer go to `FW` as one sequence. -/
theorem Ports.emitAll_map_fw (p : Ports) (l : List Byte) (es : List Emission) :
    p.emitAll (l.map .fw ++ es) = Ports.emitAll { p with fw := p.fw ++ l } es := by
  induction l generalizing p with
  | nil => simp
  | cons x l ih =>
    have h := ih (p.emit (.fw x))
    simp only [Ports.emitAll, List.map_cons, List.cons_append, List.foldl_cons] at h ⊢
    rw [h]
    simp [Ports.emit]

/-- Wire bytes of the packetizer go to `RW` as one sequence. -/
theorem Ports.emitAll_map_rw (p : Ports) (l : List Byte) (es : List Emission) :
    p.emitAll (l.map .rw ++ es) = Ports.emitAll { p with rw := p.rw ++ l } es := by
  induction l generalizing p with
  | nil => simp
  | cons x l ih =>
    have h := ih (p.emit (.rw x))
    simp only [Ports.emitAll, List.map_cons, List.cons_append, List.foldl_cons] at h ⊢
    rw [h]
    simp [Ports.emit]

/-- Beyond the traces it grew from, a trace holds what was emitted. -/
@[simp] theorem Ports.emitAll_since (p : Ports) (es : List Emission) :
    (p.emitAll es).since p = Ports.empty.emitAll es := by
  have h : ∀ q r : Ports, q.fw = r.fw → q.rw = r.rw → q.dlv = r.dlv → q.diag = r.diag → q.res = r.res → q = r := by
    rintro ⟨⟩ ⟨⟩; simp_all
  apply h <;> simp [Ports.since, Ports.empty]

@[simp] theorem Ports.emitAll_nil (p : Ports) : p.emitAll [] = p := rfl

@[simp] theorem State.emitAll_nil (s : State) : s.emitAll [] = s := rfl

@[simp] theorem Effect.complete_ok (s : State) (es : List Emission) :
    Effect.complete (.ok (s, es)) = .next (s.emitAll es) := rfl

@[simp] theorem Effect.complete_error (f : Fault) : Effect.complete (.error f) = .fault f := rfl

/-- An operation completes only through an effect, whose values it emits. -/
theorem Effect.complete_eq_next (e : Effect) (t : State) :
    e.complete = .next t ↔ ∃ s es, e = .ok (s, es) ∧ t = s.emitAll es := by
  cases e with
  | error f => simp
  | ok r => exact ⟨fun h => ⟨r.1, r.2, rfl, (Host.Outcome.next.inj h).symm⟩, by rintro ⟨s, es, h, rfl⟩; simp [h]⟩

/-- What a cut-short operation leaves: a part of its values on the ports, and the reset state. -/
theorem Effect.cutShort_eq_next (s : State) (e : Effect) (t : State) :
    e.cutShort s = .next t ↔
      ∃ u es, e = .ok (u, es) ∧ t = (s.emitAll (es.take (Config.cutLength s.resets))).assertReset := by
  cases e with
  | error f => simp [Effect.cutShort]
  | ok r =>
    exact ⟨fun h => ⟨r.1, r.2, rfl, (Host.Outcome.next.inj h).symm⟩,
      by rintro ⟨u, es, h, rfl⟩; cases h; rfl⟩

end Sys2Proof.Machine
end

