-- ==== Sys2Proof/Laws/Units.lean ====
section
/-! SUPPORT. Everything the operations of each unit can do, said once. -/

namespace Sys2Proof.Machine

/-- A completed frame leaves `frx` cleared and emits one value: the delivery or one diagnostic (41_framer_rx R105). -/
theorem frxComplete_cases (free : Nat → Byte) (u : Frx) :
    (frxComplete free u).1 = u.clear ∧
    ((∃ p, unstuff (u.buf.readSeq free 0 u.len.toNat) = .ok p ∧
        (frxComplete free u).2 = [.dlv (.frFrame u.cmd p)]) ∨
     (∃ i, unstuff (u.buf.readSeq free 0 u.len.toNat) = .error (.illegalFlag i) ∧
        (frxComplete free u).2 = [diag .frIllegalFlag (BitVec.ofNat 8 i)]) ∨
     (∃ i, unstuff (u.buf.readSeq free 0 u.len.toNat) = .error (.badEscape i) ∧
        (frxComplete free u).2 = [diag .frBadEscape (BitVec.ofNat 8 i)])) := by
  unfold frxComplete
  split <;> simp_all

/-- Inside the buffer, phase AP stores the byte, and completes the frame when the counter reaches the length
(41_framer_rx R104). -/
theorem frxAccumulate_of_lt (m : Nat) (free : Nat → Byte) (b : Byte) (u : Frx) (h : u.fill.toNat < m) :
    frxAccumulate m free b u = .ok
      (if u.fill + 1 = u.len then
        frxComplete free { u with buf := u.buf.put u.fill.toNat b, fill := u.fill + 1 }
      else ({ u with buf := u.buf.put u.fill.toNat b, fill := u.fill + 1 }, [])) := by
  simp [frxAccumulate, Memory.store_of_lt _ _ _ _ _ h, Except.map]

/-- Outside the buffer, phase AP stops the model (log entry 6). -/
theorem frxAccumulate_of_le (m : Nat) (free : Nat → Byte) (b : Byte) (u : Frx) (h : m ≤ u.fill.toNat) :
    frxAccumulate m free b u = .error (.outsideBuffer .frx) := by
  simp [frxAccumulate, Memory.store, Nat.not_lt.2 h, Except.map]

/-- Everything `FRX` can do to `frx` (41_framer_rx R100-R105). -/
theorem frxReceive_cases (m : Nat) (free : Nat → Byte) (b : Byte) (u u' : Frx) (es : List Emission)
    (h : frxReceive m free b u = .ok (u', es)) :
    (u.phase = .af ∧ b = flagByte ∧ u' = { u with phase := .ac } ∧ es = []) ∨
    (u.phase = .af ∧ b ≠ flagByte ∧ u' = u ∧ es = [diag .frGarbage b]) ∨
    (u.phase = .ac ∧ u' = { u with cmd := b, phase := .al } ∧ es = []) ∨
    (u.phase = .al ∧ m < b.toNat ∧ u' = u.clear ∧ es = [diag .frOverflow b]) ∨
    (u.phase = .al ∧ b = 0 ∧ (u', es) = frxComplete free { u with len := 0, fill := 0 }) ∨
    (u.phase = .al ∧ b.toNat ≤ m ∧ b ≠ 0 ∧ u' = { u with len := b, fill := 0, phase := .ap } ∧ es = []) ∨
    (u.phase = .ap ∧ u.fill.toNat < m ∧ u.fill + 1 = u.len ∧
      (u', es) = frxComplete free { u with buf := u.buf.put u.fill.toNat b, fill := u.fill + 1 }) ∨
    (u.phase = .ap ∧ u.fill.toNat < m ∧ u.fill + 1 ≠ u.len ∧
      u' = { u with buf := u.buf.put u.fill.toNat b, fill := u.fill + 1 } ∧ es = []) := by
  unfold frxReceive at h
  split at h
  · rename_i hp
    simp only [frxAwaitFlag] at h
    split at h <;> simp_all
  · rename_i hp
    simp only [frxAwaitCommand] at h
    simp_all
  · rename_i hp
    simp only [frxAwaitLength] at h
    split at h
    · simp_all [Frx.recover]
    · split at h
      · simp_all
      · simp_all
  · rename_i hp
    by_cases hlt : u.fill.toNat < m
    · rw [frxAccumulate_of_lt _ _ _ _ hlt] at h
      split at h <;> simp_all
    · simp [frxAccumulate_of_le _ _ _ _ (Nat.not_lt.1 hlt)] at h

/-- `FRX` answers in every phase but AP, and in AP when the counter is inside the buffer. -/
theorem frxReceive_ok (m : Nat) (free : Nat → Byte) (b : Byte) (u : Frx) (h : u.phase = .ap → u.fill.toNat < m) :
    ∃ r, frxReceive m free b u = .ok r := by
  unfold frxReceive
  split
  · exact ⟨_, rfl⟩
  · exact ⟨_, rfl⟩
  · exact ⟨_, rfl⟩
  · rename_i hp
    exact ⟨_, frxAccumulate_of_lt _ _ _ _ (h hp)⟩

/-- A completed packet leaves `rrx` cleared and emits one value (43_rl_rx R174). -/
theorem rrxComplete_cases (free : Nat → Byte) (u : Rrx) :
    (rrxComplete free u).1 = u.clear ∧
    ((∃ p, rlDecode (u.buf.readSeq free 0 u.len.toNat) = .ok p ∧
        (rrxComplete free u).2 = [.dlv (.rlPacket u.mode p)]) ∨
     (∃ i, rlDecode (u.buf.readSeq free 0 u.len.toNat) = .error i ∧
        (rrxComplete free u).2 = [diag .rlBadRun (BitVec.ofNat 8 i)])) := by
  unfold rrxComplete
  split <;> simp_all

/-- Inside the buffer, phase BODY stores the byte, and completes the packet when the counter reaches the length
(43_rl_rx R173). -/
theorem rrxBody_of_lt (free : Nat → Byte) (b : Byte) (u : Rrx) (h : u.fill.toNat < rrxDepth) :
    rrxBody free b u = .ok
      (if u.fill + 1 = u.len then
        rrxComplete free { u with buf := u.buf.put u.fill.toNat b, fill := u.fill + 1 }
      else ({ u with buf := u.buf.put u.fill.toNat b, fill := u.fill + 1 }, [])) := by
  simp [rrxBody, Memory.store_of_lt _ _ _ _ _ h, Except.map]

/-- Outside the buffer, phase BODY stops the model (log entry 6). -/
theorem rrxBody_of_le (free : Nat → Byte) (b : Byte) (u : Rrx) (h : rrxDepth ≤ u.fill.toNat) :
    rrxBody free b u = .error (.outsideBuffer .rrx) := by
  simp [rrxBody, Memory.store, Nat.not_lt.2 h, Except.map]

/-- Everything `RRX` can do to `rrx` (43_rl_rx R170-R175). -/
theorem rrxReceive_cases (free : Nat → Byte) (b : Byte) (u u' : Rrx) (es : List Emission)
    (h : rrxReceive free b u = .ok (u', es)) :
    (u.phase = .idle ∧ b = 0 ∧ u' = { u with phase := .len } ∧ es = []) ∨
    (u.phase = .idle ∧ b ≠ 0 ∧ u' = u ∧ es = [diag .rlUnexpected b]) ∨
    (u.phase = .len ∧ b = 0 ∧ u' = u ∧ es = []) ∨
    (u.phase = .len ∧ b ≠ 0 ∧ lengthField b = 0 ∧ u' = u.clear ∧ es = [diag .rlBadLength b]) ∨
    (u.phase = .len ∧ b ≠ 0 ∧ lengthField b ≠ 0 ∧
      u' = { u with mode := modeField b, len := lengthField b, fill := 0, phase := .body } ∧ es = []) ∨
    (u.phase = .body ∧ b = 0 ∧ u' = { u.clear with phase := .len } ∧
      es = [diag .rlIncomplete (u.fill.zeroExtend 8)]) ∨
    (u.phase = .body ∧ b ≠ 0 ∧ u.fill.toNat < rrxDepth ∧ u.fill + 1 = u.len ∧
      (u', es) = rrxComplete free { u with buf := u.buf.put u.fill.toNat b, fill := u.fill + 1 }) ∨
    (u.phase = .body ∧ b ≠ 0 ∧ u.fill.toNat < rrxDepth ∧ u.fill + 1 ≠ u.len ∧
      u' = { u with buf := u.buf.put u.fill.toNat b, fill := u.fill + 1 } ∧ es = []) := by
  unfold rrxReceive at h
  split at h
  · rename_i hp
    simp only [rrxIdle] at h
    split at h <;> simp_all
  · rename_i hp
    simp only [rrxLength] at h
    split at h
    · simp_all
    · split at h <;> simp_all [Rrx.recover]
  · rename_i hp
    split at h
    · simp_all [rrxEarlyBoundary]
    · by_cases hlt : u.fill.toNat < rrxDepth
      · rw [rrxBody_of_lt _ _ _ hlt] at h
        split at h <;> simp_all
      · simp [rrxBody_of_le _ _ _ (Nat.not_lt.1 hlt)] at h

/-- `RRX` answers in every phase but BODY, and in BODY when the counter is inside the buffer. -/
theorem rrxReceive_ok (free : Nat → Byte) (b : Byte) (u : Rrx) (h : u.phase = .body → u.fill.toNat < rrxDepth) :
    ∃ r, rrxReceive free b u = .ok r := by
  unfold rrxReceive
  split
  · exact ⟨_, rfl⟩
  · exact ⟨_, rfl⟩
  · rename_i hp
    split
    · exact ⟨_, rfl⟩
    · exact ⟨_, rrxBody_of_lt _ _ _ (h hp)⟩

/-- Everything `FTXD` can do to `ftx` (42_framer_tx R142). -/
theorem ftxData_cases (m : Nat) (b : Byte) (u : Ftx) :
    (u.active = false ∧ ftxData m b u = (u, [diag .txSeq 0x40])) ∨
    (u.active = true ∧ u.n.toNat < m ∧
      ftxData m b u = ({ u with buf := u.buf.put u.n.toNat b, n := u.n + 1 }, [])) ∨
    (u.active = true ∧ m ≤ u.n.toNat ∧ ftxData m b u = ({ u with overflowed := true }, [])) := by
  unfold ftxData
  split
  · split <;> simp_all
  · simp_all

/-- Everything `FTXE` can do to `ftx` (42_framer_tx R143). -/
theorem ftxEnd_cases (free : Nat → Byte) (u : Ftx) :
    (u.active = false ∧ ftxEnd free u = (u, [diag .txSeq 0x50, .res ⟨.fr, .notBegun⟩])) ∨
    (u.active = true ∧ ftxeResult u (u.buf.readSeq free 0 u.n.toNat) = .ok ∧
      ftxEnd free u =
        (u.clear, (frame u.cmd (u.buf.readSeq free 0 u.n.toNat)).map .fw ++ [.res ⟨.fr, .ok⟩])) ∨
    (u.active = true ∧ ∃ r, r ≠ .ok ∧ r ≠ .notBegun ∧
      ftxeResult u (u.buf.readSeq free 0 u.n.toNat) = r ∧
      ftxEnd free u = (u.clear, [diag .frCapacity r.info, .res ⟨.fr, r⟩])) := by
  cases h : u.active
  · simp [ftxEnd, h]
  · by_cases h0 : u.n = 0#8
    · simp [ftxEnd, h, ftxeResult, h0]
    · by_cases h1 : u.overflowed = true
      · simp [ftxEnd, h, ftxeResult, h0, h1]
      · by_cases h2 : 255 < slen (u.buf.readSeq free 0 u.n.toNat)
        · have hr : ftxeResult u (u.buf.readSeq free 0 u.n.toNat) = .stuffedTooLong := by
            simp [ftxeResult, h0, h1, h2]
          simp [ftxEnd, h, hr]
        · have hr : ftxeResult u (u.buf.readSeq free 0 u.n.toNat) = .ok := by simp [ftxeResult, h0, h1, h2]
          simp [ftxEnd, h, hr]

/-- Everything `RTXD` can do to `rtx` (44_rl_tx R212). -/
theorem rtxData_cases (b : Byte) (u : Rtx) :
    (u.active = false ∧ rtxData b u = (u, [diag .txSeq 0x70])) ∨
    (u.active = true ∧ u.n.toNat < rtxDepth ∧
      rtxData b u = ({ u with buf := u.buf.put u.n.toNat b, n := u.n + 1 }, [])) ∨
    (u.active = true ∧ rtxDepth ≤ u.n.toNat ∧ rtxData b u = ({ u with overflowed := true }, [])) := by
  unfold rtxData
  split
  · split <;> simp_all
  · simp_all

/-- Everything `RTXE` can do to `rtx` (44_rl_tx R213). -/
theorem rtxEnd_cases (free : Nat → Byte) (u : Rtx) :
    (u.active = false ∧ rtxEnd free u = (u, [diag .txSeq 0x80, .res ⟨.rl, .notBegun⟩])) ∨
    (u.active = true ∧ rtxeResult u = .ok ∧
      rtxEnd free u =
        (u.clear, (rlEncode u.mode (u.buf.readSeq free 0 u.n.toNat)).map .rw ++ [.res ⟨.rl, .ok⟩])) ∨
    (u.active = true ∧ ∃ r, (r = .empty ∨ r = .tooLong) ∧ rtxeResult u = r ∧
      rtxEnd free u = (u.clear, [diag .rlCapacity r.info, .res ⟨.rl, r⟩])) := by
  cases h : u.active
  · simp [rtxEnd, h]
  · by_cases h0 : u.n = 0#6
    · simp [rtxEnd, h, rtxeResult, h0]
    · by_cases h1 : u.overflowed = true
      · simp [rtxEnd, h, rtxeResult, h0, h1]
      · simp [rtxEnd, h, rtxeResult, h0, h1]

end Sys2Proof.Machine
end

