-- ==== Sys2Proof/Laws/Step.lean ====
section
/-! SUPPORT. What a step can do, said once. -/

namespace Sys2Proof.Machine

/-- The meaning of an operation is its effect, completed. -/
theorem exec_eq_complete (i : Instr) (s : State) : exec i s = (instrEffect i s).complete := by cases i <;> rfl

/-- Everything a step can do: hold the state, execute a word, take the reset input between operations, or be cut
short by it. -/
theorem step_cases (s t : State) (h : step s = .next t) :
    (s.input = [] ∧ t = s) ∨
    (∃ w rest u es, s.input = .word w :: rest ∧ decodedEffect (decode w) (s.accept rest) = .ok (u, es) ∧
      t = u.emitAll es) ∨
    (∃ rest, s.input = .reset :: rest ∧ t = { s.assertReset with input := rest }) ∨
    (∃ w rest u es, s.input = .resetDuring w :: rest ∧
      decodedEffect (decode w) (s.accept rest) = .ok (u, es) ∧
      t = ((s.accept rest).emitAll (es.take (Config.cutLength s.resets))).assertReset) := by
  unfold step at h
  split at h
  · rename_i hi; exact .inl ⟨hi, (Host.Outcome.next.inj h).symm⟩
  · rename_i w rest hi
    refine .inr (.inl ⟨w, rest, ?_⟩)
    split at h <;> rename_i hd
    · rw [exec_eq_complete] at h
      obtain ⟨u, es, he, ht⟩ := (Effect.complete_eq_next _ _).1 h
      exact ⟨u, es, hi, by rw [hd]; exact he, ht⟩
    · obtain ⟨u, es, he, ht⟩ := (Effect.complete_eq_next _ _).1 h
      exact ⟨u, es, hi, by rw [hd]; exact he, ht⟩
  · rename_i rest hi; exact .inr (.inr (.inl ⟨rest, hi, (Host.Outcome.next.inj h).symm⟩))
  · rename_i w rest hi
    obtain ⟨u, es, he, ht⟩ := (Effect.cutShort_eq_next _ _ _).1 h
    exact .inr (.inr (.inr ⟨w, rest, u, es, hi, he, ht⟩))

/-- Everything the effect of an operation can be: the record of its own unit, and what the unit emits. -/
theorem instrEffect_ok (i : Instr) (s u : State) (es : List Emission) (h : instrEffect i s = .ok (u, es)) :
    (i = .nop ∧ u = s ∧ es = []) ∨
    (∃ b r, i = .frx b ∧ frxReceive s.maxPayload.val (s.unwritten .frx) b s.frx = .ok (r, es) ∧ u = s.setFrx r) ∨
    (∃ b r, i = .rrx b ∧ rrxReceive (s.unwritten .rrx) b s.rrx = .ok (r, es) ∧ u = s.setRrx r) ∨
    (∃ b, i = .ftxb b ∧ u = s.setFtx (ftxBegin b s.ftx).1 ∧ es = (ftxBegin b s.ftx).2) ∨
    (∃ b, i = .ftxd b ∧ u = s.setFtx (ftxData s.maxPayload.val b s.ftx).1 ∧
      es = (ftxData s.maxPayload.val b s.ftx).2) ∨
    (i = .ftxe ∧ u = s.setFtx (ftxEnd (s.unwritten .ftx) s.ftx).1 ∧ es = (ftxEnd (s.unwritten .ftx) s.ftx).2) ∨
    (∃ m, i = .rtxb m ∧ u = s.setRtx (rtxBegin m s.rtx).1 ∧ es = (rtxBegin m s.rtx).2) ∨
    (∃ b, i = .rtxd b ∧ u = s.setRtx (rtxData b s.rtx).1 ∧ es = (rtxData b s.rtx).2) ∨
    (i = .rtxe ∧ u = s.setRtx (rtxEnd (s.unwritten .rtx) s.rtx).1 ∧ es = (rtxEnd (s.unwritten .rtx) s.rtx).2) ∨
    (∃ t, i = .clr t ∧ u = s.clearUnits t ∧ es = []) := by
  cases i with
  | nop => simp_all [instrEffect, nopEffect]
  | frx b =>
    simp only [instrEffect, frxEffect] at h
    cases hr : frxReceive s.maxPayload.val (s.unwritten .frx) b s.frx with
    | error f => simp [hr, Except.map] at h
    | ok r =>
      obtain ⟨r1, r2⟩ := r
      simp only [hr, Except.map, Except.ok.injEq, Prod.mk.injEq] at h
      exact .inr (.inl ⟨b, r1, rfl, by rw [← h.2, hr], h.1.symm⟩)
  | rrx b =>
    simp only [instrEffect, rrxEffect] at h
    cases hr : rrxReceive (s.unwritten .rrx) b s.rrx with
    | error f => simp [hr, Except.map] at h
    | ok r =>
      obtain ⟨r1, r2⟩ := r
      simp only [hr, Except.map, Except.ok.injEq, Prod.mk.injEq] at h
      exact .inr (.inr (.inl ⟨b, r1, rfl, by rw [← h.2, hr], h.1.symm⟩))
  | ftxb b => simp only [instrEffect, ftxbEffect, Except.ok.injEq, Prod.mk.injEq] at h; simp [h]
  | ftxd b => simp only [instrEffect, ftxdEffect, Except.ok.injEq, Prod.mk.injEq] at h; simp [h]
  | ftxe => simp only [instrEffect, ftxeEffect, Except.ok.injEq, Prod.mk.injEq] at h; simp [h]
  | rtxb m => simp only [instrEffect, rtxbEffect, Except.ok.injEq, Prod.mk.injEq] at h; simp [h]
  | rtxd b => simp only [instrEffect, rtxdEffect, Except.ok.injEq, Prod.mk.injEq] at h; simp [h]
  | rtxe => simp only [instrEffect, rtxeEffect, Except.ok.injEq, Prod.mk.injEq] at h; simp [h]
  | clr t => simp only [instrEffect, clrEffect, Except.ok.injEq, Prod.mk.injEq] at h; simp [h]

/-- An operation's effect touches no trace, no input, no count and no build parameter. -/
theorem instrEffect_frame (i : Instr) (s u : State) (es : List Emission) (h : instrEffect i s = .ok (u, es)) :
    u.ports = s.ports ∧ u.maxPayload = s.maxPayload ∧ u.input = s.input ∧ u.opIndex = s.opIndex ∧
    u.resets = s.resets := by
  rcases instrEffect_ok i s u es h with ⟨-, rfl, -⟩ | ⟨b, r, -, -, rfl⟩ | ⟨b, r, -, -, rfl⟩ | ⟨b, -, rfl, -⟩ |
    ⟨b, -, rfl, -⟩ | ⟨-, rfl, -⟩ | ⟨m, -, rfl, -⟩ | ⟨b, -, rfl, -⟩ | ⟨-, rfl, -⟩ | ⟨t, -, rfl, -⟩ <;> simp

/-- So does an illegal word's. -/
theorem decodedEffect_frame (d : Decoded) (s u : State) (es : List Emission) (h : decodedEffect d s = .ok (u, es)) :
    u.ports = s.ports ∧ u.maxPayload = s.maxPayload ∧ u.input = s.input ∧ u.opIndex = s.opIndex ∧
    u.resets = s.resets := by
  cases d with
  | op i => exact instrEffect_frame i s u es h
  | illegal info =>
    simp only [decodedEffect, illegalEffect, Except.ok.injEq, Prod.mk.injEq] at h
    simp [← h.1]

/-- A step takes one event from the input. -/
theorem step_input (s t : State) (h : step s = .next t) : t.input = s.input.tail := by
  rcases step_cases s t h with ⟨hi, rfl⟩ | ⟨w, rest, u, es, hi, he, rfl⟩ | ⟨rest, hi, rfl⟩ |
    ⟨w, rest, u, es, hi, -, rfl⟩
  · simp [hi]
  · simp [hi, (decodedEffect_frame _ _ _ _ he).2.2.1]
  · simp [hi]
  · simp [hi]

/-- A run to the end of the input takes its first step and goes on from there. -/
theorem runToEnd_step (s t : State) (hi : s.input ≠ []) (h : step s = .next t) : runToEnd s = runToEnd t := by
  obtain ⟨e, rest, he⟩ := List.exists_cons_of_ne_nil hi
  have ht := step_input s t h
  rw [he, List.tail_cons] at ht
  simp only [runToEnd, he, ht, List.length_cons, Host.Core.run, Sys2Proof.core, h]

/-- A run with no input is over. -/
theorem runToEnd_nil (s : State) (hi : s.input = []) : runToEnd s = .next s := by
  unfold runToEnd
  rw [hi]
  rfl

end Sys2Proof.Machine
end

