-- ==== Sys2Proof/Laws/Run.lean ====
section
/-! SUPPORT. Runs of operation words and what is observed of them (70_reset R302). -/

namespace Sys2Proof.Machine

/-- A run of operation words adds to the traces it was launched with, in emission order, and takes nothing back. -/
theorem runToEnd_words_ports (ws : List Word) (s t : State) (h : runToEnd (s.offeringWords ws) = .next t) :
    ∃ es, t.ports = s.ports.emitAll es := by
  induction ws generalizing s with
  | nil =>
    rw [runToEnd_nil _ rfl] at h
    exact ⟨[], by simp [← Host.Outcome.next.inj h, State.offeringWords]⟩
  | cons w ws ih =>
    cases hs : step (s.offeringWords (w :: ws)) with
    | next u =>
      rw [runToEnd_step _ u (by simp [State.offeringWords]) hs] at h
      rcases step_cases _ u hs with ⟨hi, -⟩ | ⟨w', rest, v, es, hi, he, rfl⟩ | ⟨rest, hi, -⟩ | ⟨w', rest, v, es, hi, -⟩
      · simp [State.offeringWords] at hi
      · have hf := decodedEffect_frame _ _ _ _ he
        have hr : rest = ws.map .word := by simpa [State.offeringWords] using (List.cons.inj hi).2.symm
        have hu : (v.emitAll es).offeringWords ws = v.emitAll es := by
          simp [State.offeringWords, ← hr, State.emitAll, hf.2.2.1, State.accept]
        rw [← hu] at h
        obtain ⟨fs, hfs⟩ := ih _ h
        exact ⟨es ++ fs, by rw [hfs, Ports.emitAll_append]; simp [hf.1, State.accept, State.offeringWords]⟩
      · simp [State.offeringWords] at hi
      · simp [State.offeringWords] at hi
    | fault r => simp [runToEnd, State.offeringWords, Host.Core.run, Sys2Proof.core] at h hs; simp [hs] at h
    | refused r => simp [runToEnd, State.offeringWords, Host.Core.run, Sys2Proof.core] at h hs; simp [hs] at h

/-- The traces a run is observed with hold what its words emitted and nothing that the launch state's traces held. -/
theorem observeRun_ports (s : State) (ws : List Word) (o : Observation) (h : observeRun s ws = some o) :
    ∃ t es, runToEnd (s.offeringWords ws) = .next t ∧ t.ports = s.ports.emitAll es ∧
      o.ports = Ports.empty.emitAll es := by
  unfold observeRun at h
  split at h
  · rename_i t ht
    obtain ⟨es, hes⟩ := runToEnd_words_ports ws s t ht
    cases h
    exact ⟨t, es, ht, hes, by simp [State.observe, hes]⟩
  · cases h
  · cases h

end Sys2Proof.Machine
end

