-- ==== Sys2Proof/Tests/Slice0.lean ====
section
/-! SUPPORT. Tests of one step on small states, with expected results from 95_test_vectors and the rules cited, the
well-formedness smoke test, and a witness for the hypotheses of every statement that has some. -/

namespace Sys2Proof.Machine.Tests

/-- The vectors' default block, `MAX_PAYLOAD` 16 (95_test_vectors). -/
def s16 : State := State.resetWith 16

/-- The ports after an operation, if it completes. -/
def portsAfter (i : Instr) (s : State) : Option Ports :=
  match exec i s with
  | .next t => some t.ports
  | _ => none

/-- The state after a word, if the step completes. -/
def afterWord (s : State) (w : Word) : Option State :=
  match step { s with input := [.word w] } with
  | .next t => some t
  | _ => none

def sAc : State := s16.setFrx { Frx.initial with phase := .ac }
def sAl : State := s16.setFrx { Frx.initial with phase := .al, cmd := 0x01 }
/-- V1b before its last byte. -/
def sAp : State :=
  s16.setFrx { phase := .ap, cmd := 0x01, len := 3, fill := 2, buf := [(0, 0x7D), (1, 0x5E)] }
/-- V1c after its last byte. -/
def sParked : State :=
  s16.setFrx { phase := .ap, cmd := 0x01, len := 4, fill := 2, buf := [(0, 0x7D), (1, 0x5E)] }
def sTx : State := s16.setFtx { active := true, cmd := 0x01, n := 2, overflowed := false, buf := [(0, 0x7E), (1, 0x41)] }
def sTxFull : State :=
  (State.resetWith 1).setFtx { active := true, cmd := 0x01, n := 1, overflowed := false, buf := [(0, 0x41)] }
def sRlLen : State := s16.setRrx { Rrx.initial with phase := .len }
/-- V2b before its last byte. -/
def sRlBody : State :=
  s16.setRrx { phase := .body, mode := 0, len := 5, fill := 4, buf := [(0, 0x03), (1, 0x41), (2, 0x42), (3, 0x02)] }
def sRlMid : State :=
  s16.setRrx { phase := .body, mode := 0, len := 5, fill := 2, buf := [(0, 0x03), (1, 0x41)] }
/-- V2a before its last word. -/
def sRtx : State :=
  s16.setRtx { active := true, mode := 0, n := 4, overflowed := false,
               buf := [(0, 0x41), (1, 0x42), (2, 0x00), (3, 0x43)] }

/-! ## Well-formedness: an ill-formed line for each check (30_encoding R90) -/

theorem test_wf_accepts : AsmLine.wf ⟨.frx, .hex 0x7E⟩ = true ∧ AsmLine.wf ⟨.rtxb, .mode .userlog⟩ = true := by decide
theorem test_wf_refuses_byte_too_large :
    AsmLine.wf ⟨.frx, .hex 256⟩ = false ∧ AsmLine.wf ⟨.rrx, .hex 256⟩ = false ∧
    AsmLine.wf ⟨.ftxb, .hex 256⟩ = false ∧ AsmLine.wf ⟨.ftxd, .hex 256⟩ = false ∧
    AsmLine.wf ⟨.rtxd, .hex 256⟩ = false := by decide
theorem test_wf_refuses_mode_too_large : AsmLine.wf ⟨.rtxb, .dec 4⟩ = false := by decide
theorem test_wf_refuses_mask_too_large : AsmLine.wf ⟨.clr, .hex 16⟩ = false := by decide
theorem test_wf_refuses_empty_units : AsmLine.wf ⟨.clr, .units []⟩ = false := by decide
theorem test_wf_refuses_extra_operand :
    AsmLine.wf ⟨.nop, .hex 0⟩ = false ∧ AsmLine.wf ⟨.ftxe, .hex 0⟩ = false ∧ AsmLine.wf ⟨.rtxe, .hex 0⟩ = false := by
  decide
theorem test_wf_refuses_missing_operand : AsmLine.wf ⟨.ftxb, .absent⟩ = false ∧ AsmLine.wf ⟨.clr, .absent⟩ = false := by
  decide

/-! ## Decoding: words written out bit by bit from 30_encoding R73, op then a then b -/

theorem test_decode_nop : decode 0b0000_0000_00000000 = .op .nop := by decide
theorem test_decode_frx : decode 0b0001_0000_01111110 = .op (.frx 0x7E) := by decide
theorem test_decode_rrx : decode 0b0010_0000_10000001 = .op (.rrx 0x81) := by decide
theorem test_decode_ftxb : decode 0b0011_0000_00000001 = .op (.ftxb 0x01) := by decide
theorem test_decode_ftxd : decode 0b0100_0000_01000001 = .op (.ftxd 0x41) := by decide
theorem test_decode_ftxe : decode 0b0101_0000_00000000 = .op .ftxe := by decide
theorem test_decode_rtxb : decode 0b0110_0010_00000000 = .op (.rtxb 2) := by decide
theorem test_decode_rtxd : decode 0b0111_0000_01000011 = .op (.rtxd 0x43) := by decide
theorem test_decode_rtxe : decode 0b1000_0000_00000000 = .op .rtxe := by decide
theorem test_decode_clr : decode 0b1001_0101_00000000 = .op (.clr 0x5) := by decide
theorem test_decode_must_be_zero : decode 0b0110_0100_00000000 = .illegal 0x64 := by decide
theorem test_decode_reserved : decode 0b1111_1111_11111111 = .illegal 0xFF := by decide
theorem test_decode_table_word : decodeTableWord 16 0x9F00 = some (.clr 0xF) ∧ decodeTableWord 16 0xA000 = none := by
  decide

/-- 30_encoding R90's own examples. -/
theorem test_assemble_units :
    assembleText ['C', 'L', 'R', ' ', 'f', 'r', 'x', '+', 'r', 'r', 'x'] = some (.clr 0x5) := by decide
theorem test_assemble_byte : assembleText ['F', 'R', 'X', ' ', '0', 'x', '7', 'E'] = some (.frx 0x7E) := by decide
theorem test_assemble_too_large : assembleText ['R', 'T', 'X', 'B', ' ', '4'] = none := by decide
/-- 95_test_vectors V1a. -/
theorem test_fsend_words : (expand (.fsend 0x01 [0x7E, 0x41])).map encode = [0x3001, 0x407E, 0x4041, 0x5000] := by decide

/-! ## The operations, one step each -/

/-- 41_framer_rx R101's example. -/
theorem test_frx_garbage : portsAfter (.frx 0x41) s16 = some { Ports.empty with diag := [⟨.frGarbage, 0x41⟩] } := by
  decide
/-- 95_test_vectors V1b, last word. -/
theorem test_frx_delivers :
    portsAfter (.frx 0x41) sAp = some { Ports.empty with dlv := [.frFrame 0x01 [0x7E, 0x41]] } := by decide
/-- 43_rl_rx R171's example. -/
theorem test_rrx_unexpected : portsAfter (.rrx 0x41) s16 = some { Ports.empty with diag := [⟨.rlUnexpected, 0x41⟩] } := by
  decide
/-- 95_test_vectors V2b, last word. -/
theorem test_rrx_delivers :
    portsAfter (.rrx 0x43) sRlBody = some { Ports.empty with dlv := [.rlPacket 0 [0x41, 0x42, 0x00, 0x43]] } := by decide
/-- 95_test_vectors T4-3, the second begin. -/
theorem test_ftxb_restarts : portsAfter (.ftxb 0x02) sTx = some { Ports.empty with diag := [⟨.txSeq, 0x30⟩] } := by decide
/-- 95_test_vectors T4-2. -/
theorem test_ftxd_not_begun : portsAfter (.ftxd 0x41) s16 = some { Ports.empty with diag := [⟨.txSeq, 0x40⟩] } := by
  decide
/-- 95_test_vectors T4-5: the byte that finds the buffer full. -/
theorem test_ftxd_full :
    (afterWord sTxFull 0x4041).map (fun t => (t.ftx.overflowed, t.ftx.n)) = some (true, 1) := by decide
/-- 95_test_vectors V1a, last word. -/
theorem test_ftxe_emits :
    portsAfter .ftxe sTx =
      some { Ports.empty with fw := [0x7E, 0x01, 0x03, 0x7D, 0x5E, 0x41], res := [⟨.fr, .ok⟩] } := by decide
/-- 95_test_vectors T4-1. -/
theorem test_ftxe_not_begun :
    portsAfter .ftxe s16 = some { Ports.empty with diag := [⟨.txSeq, 0x50⟩], res := [⟨.fr, .notBegun⟩] } := by decide
/-- 95_test_vectors T8-3, the second begin. -/
theorem test_rtxb_restarts : portsAfter (.rtxb 2) sRtx = some { Ports.empty with diag := [⟨.txSeq, 0x62⟩] } := by decide
/-- 44_rl_tx R212's example, at n = 4. -/
theorem test_rtxd_stores :
    (afterWord sRtx 0x7000).map (fun t => (t.rtx.n, t.rtx.buf.find 4)) = some (5, some 0x00) := by decide
/-- 95_test_vectors V2a, last word. -/
theorem test_rtxe_emits :
    portsAfter .rtxe sRtx =
      some { Ports.empty with rw := [0x00, 0x05, 0x03, 0x41, 0x42, 0x02, 0x43], res := [⟨.rl, .ok⟩] } := by decide
/-- 95_test_vectors T9-2: the parked receiver is cleared, its bytes stay unobservable in the buffer. -/
theorem test_clr_frx :
    (afterWord sAp 0x9100).map (fun t => (t.frx, t.ports)) =
      some ({ phase := .af, cmd := 0, len := 0, fill := 0, buf := [(0, 0x7D), (1, 0x5E)] }, Ports.empty) := by decide
/-- 95_test_vectors T9-1. -/
theorem test_nop : (afterWord sAp 0x0000).map (fun t => (t.frx, t.ports)) = some (sAp.frx, Ports.empty) := by decide
/-- 95_test_vectors T9-6. -/
theorem test_illegal :
    (afterWord sTx 0xA012).map (fun t => (t.ftx, t.ports.diag)) = some (sTx.ftx, [⟨.illegalOp, 0xA0⟩]) := by decide
/-- 30_encoding R87 and R89: the bits of a port value. -/
theorem test_port_bits :
    Diag.bits ⟨.illegalOp, 0xA0⟩ = 0xCA0 ∧ Res.bits ⟨.rl, .notBegun⟩ = 0b1100 ∧
    Delivery.header (.rlPacket 2 [0x41]) = 0b1_00000010_00000001 := by decide
/-- A step from the reset state runs the word offered (30_encoding R70). -/
theorem test_first_word :
    (match step (State.reset.withFetchWord 16 0x107E) with
      | .next t => decide (t.frx.phase = .ac)
      | _ => false) = true := by decide

/-- 70_reset R302: a delivery already in the launch state's trace is not in the observation of the run (V1b's last
word). -/
theorem test_observation_is_of_the_run :
    (observeRun { sAp with ports := { Ports.empty with dlv := [.frFrame 0x22 []], fw := [0x7E] } } [0x1041]).map
        (fun o => (o.ports, o.frx)) =
      some ({ Ports.empty with dlv := [.frFrame 0x01 [0x7E, 0x41]] }, (.af, 0, 0, 0, [])) := rfl

/-! ## Witnesses: states and operands that meet the hypotheses of each statement -/

theorem witness_reserved : 0xA ≤ ((0xA012 : Word).extractLsb' 12 4).toNat := by decide
theorem witness_rows_disjoint :
    (⟨.frx, 0x1000, 0xFF00⟩ : OpRow) ∈ opRows ∧ (0x107E : Word) &&& 0xFF00 = 0x1000 := by decide
theorem witness_never_truncates :
    assemble ⟨.frx, .hex 255⟩ = some (.frx 255) ∧ assemble ⟨.rrx, .hex 255⟩ = some (.rrx 255) ∧
    assemble ⟨.ftxb, .hex 255⟩ = some (.ftxb 255) ∧ assemble ⟨.ftxd, .hex 255⟩ = some (.ftxd 255) ∧
    assemble ⟨.rtxd, .hex 255⟩ = some (.rtxd 255) ∧ assemble ⟨.rtxb, .dec 3⟩ = some (.rtxb 3) ∧
    assemble ⟨.clr, .hex 15⟩ = some (.clr 15) ∧ 256 ≤ 256 := by decide
theorem witness_step_runs :
    { s16 with input := [.word 0x107E] }.input = InputEvent.word 0x107E :: [] ∧
    decode 0x107E = .op (.frx 0x7E) := by decide
theorem witness_illegal :
    { s16 with input := [.word 0x0001] }.input = InputEvent.word 0x0001 :: [] ∧
    ∀ r ∈ opRows, (0x0001 : Word) &&& r.mask ≠ r.pattern := by decide
theorem witness_no_input : s16.input = [] := by decide
theorem witness_power_on : State.resetWith 16 = s16 := rfl
theorem witness_reset_input : { sAp with input := [.reset] }.input = InputEvent.reset :: [] := rfl
theorem witness_reset_during :
    { sTx with input := [.resetDuring 0x5000] }.input = InputEvent.resetDuring 0x5000 :: [] ∧
    State.Inv { sTx with input := [.resetDuring 0x5000] } := by
  exact ⟨rfl, by decide⟩
theorem witness_inv : sAp.Inv ∧ sParked.Inv ∧ sTx.Inv ∧ sRlBody.Inv ∧ sRtx.Inv := by
  refine ⟨?_, ?_, ?_, ?_, ?_⟩ <;> decide
/-- A step answers, for the statements about a step's next state. -/
theorem witness_step : ∃ t, step { sAp with input := [.word 0x1041] } = .next t := ⟨_, rfl⟩
theorem witness_effect : ∃ u es, instrEffect .ftxe sTx = .ok (u, es) := ⟨_, _, rfl⟩
theorem witness_run : sAp.Inv ∧ ([.frx 0x41, .rtxb 1, .clr 0x1] : List Instr).filter (addresses .frx) = [.frx 0x41, .clr 0x1] := by
  exact ⟨by decide, by decide⟩
theorem witness_frx_af : s16.frx.phase = .af ∧ (0x7E : Byte) = 0x7E ∧ (0x7D : Byte) ≠ 0x7E := by decide
theorem witness_frx_ac : sAc.frx.phase = .ac := by decide
/-- The four values where R103's clauses meet: 0, 1, `MAX_PAYLOAD` and one more. -/
theorem witness_frx_al :
    sAl.frx.phase = .al ∧ ¬ sAl.maxPayload.val < (0 : Byte).toNat ∧ (0 : Byte) = 0 ∧
    ¬ sAl.maxPayload.val < (1 : Byte).toNat ∧ (1 : Byte) ≠ 0 ∧
    ¬ sAl.maxPayload.val < (16 : Byte).toNat ∧ sAl.maxPayload.val < (17 : Byte).toNat := by decide
theorem witness_frx_stores :
    sParked.frx.phase = .ap ∧ sParked.frx.fill.toNat < sParked.maxPayload.val ∧
    sParked.frx.fill + 1 ≠ sParked.frx.len := by decide
theorem witness_frx_completes :
    sAp.frx.phase = .ap ∧ sAp.frx.fill.toNat < sAp.maxPayload.val ∧ sAp.frx.fill + 1 = sAp.frx.len := by decide
theorem witness_outside_buffer :
    ((State.resetWith 2).setFrx sAp.frx).frx.phase = .ap ∧
    ((State.resetWith 2).setFrx sAp.frx).maxPayload.val ≤ ((State.resetWith 2).setFrx sAp.frx).frx.fill.toNat ∧
    (s16.setRrx { Rrx.initial with phase := .body, fill := 63 }).rrx.phase = .body ∧ (0x01 : Byte) ≠ 0 ∧
    63 ≤ (s16.setRrx { Rrx.initial with phase := .body, fill := 63 }).rrx.fill.toNat := by decide
theorem witness_first_flag : (0x7E : Byte) ∈ [0x7D, (0x7E : Byte)] := by decide
theorem witness_no_flag : (0x7E : Byte) ∉ [0x41, (0x7D : Byte)] ∧ (0x7E : Byte) ∉ [0x7D, (0x41 : Byte)] := by decide
theorem witness_framer_loopback :
    s16.frx.phase = .af ∧ slen [0x7E, 0x41] ≤ 255 ∧ slen [0x7E, 0x41] ≤ s16.maxPayload.val ∧
    (State.resetWith 2).frx.phase = .af ∧ (State.resetWith 2).maxPayload.val < slen [0x7E, 0x41] := by decide
theorem witness_rrx_idle : s16.rrx.phase = .idle ∧ (0 : Byte) = 0 ∧ (0x41 : Byte) ≠ 0 := by decide
/-- R172's three clauses: a boundary, a bad length, a length. -/
theorem witness_rrx_len :
    sRlLen.rrx.phase = .len ∧ (0x40 : Byte) ≠ 0 ∧ (0x40 : Byte).extractLsb' 0 6 = (0 : BitVec 6) ∧
    (0x05 : Byte) ≠ 0 ∧ (0x05 : Byte).extractLsb' 0 6 ≠ (0 : BitVec 6) := by decide
theorem witness_rrx_stores :
    sRlMid.rrx.phase = .body ∧ (0x42 : Byte) ≠ 0 ∧ sRlMid.rrx.fill.toNat < 63 ∧
    sRlMid.rrx.fill + 1 ≠ sRlMid.rrx.len := by decide
theorem witness_rrx_completes :
    sRlBody.rrx.phase = .body ∧ (0x43 : Byte) ≠ 0 ∧ sRlBody.rrx.fill.toNat < 63 ∧
    sRlBody.rrx.fill + 1 = sRlBody.rrx.len := by decide
/-- A byte that delivers, one that is refused, and an early boundary, for the statements about what is left. -/
theorem witness_receiver_initial :
    (portsAfter (.frx 0x41) sAp).map (·.dlv) ≠ some sAp.ports.dlv ∧
    (portsAfter (.frx 0x11) sAl).map (·.diag) ≠ some sAl.ports.diag ∧ sAl.frx.phase ≠ .af ∧
    (portsAfter (.rrx 0x43) sRlBody).map (·.dlv) ≠ some sRlBody.ports.dlv ∧
    (portsAfter (.rrx 0x40) sRlLen).map (·.diag) ≠ some sRlLen.ports.diag ∧ sRlLen.rrx.phase ≠ .idle ∧
    (portsAfter (.rrx 0x00) sRlMid).map (·.diag) ≠ some sRlMid.ports.diag := by decide
theorem witness_decoded_length :
    [(0x02 : Byte), 0x41] ≠ [] ∧
    (match rlDecode [0x02, 0x41] with
      | .ok p => p == [0x41]
      | .error _ => false) = true := by decide
theorem witness_packet :
    1 ≤ [(0x41 : Byte), 0x00].length ∧ [(0x41 : Byte), 0x00].length ≤ 62 ∧
    rlEncode 0 [0x41, 0x00] = 0x00 :: 0x03 :: [0x02, 0x41, 0x01] ∧
    (s16.rrx.phase = .idle ∨ s16.rrx.phase = .len) ∧ (sRlLen.rrx.phase = .idle ∨ sRlLen.rrx.phase = .len) := by decide
/-- The ends of the payload's range, 1 and 62 bytes, for the statements about packets. -/
theorem witness_packet_shortest :
    1 ≤ [(0x00 : Byte)].length ∧ [(0x00 : Byte)].length ≤ 62 ∧
    rlEncode 3 [0x00] = 0x00 :: 0xC2 :: [0x01, 0x01] := by decide
set_option maxRecDepth 4000 in
theorem witness_packet_longest :
    1 ≤ (List.replicate 62 (0x41 : Byte)).length ∧ (List.replicate 62 (0x41 : Byte)).length ≤ 62 ∧
    rlEncode 3 (List.replicate 62 0x41) = 0x00 :: 0xFF :: 0x3F :: List.replicate 62 0x41 := by decide
set_option maxRecDepth 4000 in
/-- The branches of `FTXD` and `FTXE`: not begun, room, full; empty, too long, sent. -/
theorem witness_ftx_branches :
    s16.ftx.active = false ∧ sTx.ftx.active = true ∧ sTx.ftx.n.toNat < sTx.maxPayload.val ∧
    sTxFull.ftx.active = true ∧ ¬ sTxFull.ftx.n.toNat < sTxFull.maxPayload.val ∧
    255 < (stuff (List.replicate 128 0x7E)).length ∧ ¬ 255 < (stuff [0x7E, 0x41]).length := by decide
theorem witness_exec_frx : ∃ t, exec (.frx 0x41) sAp = .next t := ⟨_, rfl⟩
theorem witness_exec_rrx : ∃ t, exec (.rrx 0x43) sRlBody = .next t := ⟨_, rfl⟩
theorem witness_exec_ftx :
    (∃ t, exec (.ftxb 0x41) sTx = .next t) ∧ (∃ t, exec (.ftxd 0x41) sTx = .next t) ∧
    (∃ t, exec .ftxe sTx = .next t) := ⟨⟨_, rfl⟩, ⟨_, rfl⟩, ⟨_, rfl⟩⟩
theorem witness_exec_rtx :
    (∃ t, exec (.rtxb 1) sRtx = .next t) ∧ (∃ t, exec (.rtxd 0x41) sRtx = .next t) ∧
    (∃ t, exec .rtxe sRtx = .next t) := ⟨⟨_, rfl⟩, ⟨_, rfl⟩, ⟨_, rfl⟩⟩
theorem witness_nop_illegal : 0x0001 ≤ (0x0001 : Word).toNat ∧ (0x0FFF : Word).toNat ≤ 0x0FFF := by decide
theorem witness_exec_control :
    (∃ t, exec .nop sTx = .next t) ∧ (∃ t, exec (.clr 0x5) sTx = .next t) ∧ maskSelects 0x5 .ftx = false ∧
    maskSelects 0xA .frx = false ∧ maskSelects 0xA .rrx = false ∧ maskSelects 0x5 .rtx = false :=
  ⟨⟨_, rfl⟩, ⟨_, rfl⟩, by decide, by decide, by decide, by decide⟩

end Sys2Proof.Machine.Tests
end

section
/-! # Operation words: decoding gives an encoded operation back (30_encoding R73-R76) -/

namespace Sys2Proof

/-- A word that two rows select makes their patterns agree on the bits both masks look at. -/
theorem OpRow.pattern_and_mask_eq_of_selects {r r' : OpRow} {w : Word} (h : r.selects w = true)
    (h' : r'.selects w = true) : r.pattern &&& r'.mask = r'.pattern &&& r.mask := by
  simp only [OpRow.selects, beq_iff_eq] at h h'
  rw [← h, ← h', BitVec.and_assoc, BitVec.and_assoc, BitVec.and_comm r.mask]

/-- The rows of the operation map exclude one another: any two differ in a bit that both masks look at. -/
theorem opRows_eq_of_selects {r r' : OpRow} {w : Word} (hr : r ∈ opRows) (hr' : r' ∈ opRows)
    (h : r.selects w = true) (h' : r'.selects w = true) : r = r' := by
  have hdiffer : ∀ a ∈ opRows, ∀ b ∈ opRows, a.pattern &&& b.mask = b.pattern &&& a.mask → a = b := by decide
  exact hdiffer r hr r' hr' (OpRow.pattern_and_mask_eq_of_selects h h')

/-- A word decodes through any row that selects it. -/
theorem decode_of_selects {r : OpRow} {w : Word} (hr : r ∈ opRows) (h : r.selects w = true) :
    decode w = .op (r.mnemonic.instrOf w) := by
  unfold decode
  split
  · next r' hfind =>
    rw [opRows_eq_of_selects (List.mem_of_find?_eq_some hfind) hr (by simpa using List.find?_some hfind) h]
  · next hfind => exact absurd h (List.find?_eq_none.1 hfind r hr)

/-- The word of an operation is selected by its row, which stands in the operation map. -/
theorem selects_encode (i : Instr) : i.mnemonic.row.selects (encode i) = true ∧ i.mnemonic.row ∈ opRows := by
  cases i with
  | nop => exact Laws.RowEncoding.nop
  | frx b => exact Laws.RowEncoding.frx b
  | rrx b => exact Laws.RowEncoding.rrx b
  | ftxb b => exact Laws.RowEncoding.ftxb b
  | ftxd b => exact Laws.RowEncoding.ftxd b
  | ftxe => exact Laws.RowEncoding.ftxe
  | rtxb m => exact Laws.RowEncoding.rtxb m
  | rtxd b => exact Laws.RowEncoding.rtxd b
  | rtxe => exact Laws.RowEncoding.rtxe
  | clr t => exact Laws.RowEncoding.clr t

/-- A byte operand is read back from under a pattern whose low byte is zero. -/
theorem operandB_or_zeroExtend {p : Word} (hp : operandB p = 0) (b : Byte) :
    operandB (p ||| b.zeroExtend 16) = b := by
  have hb : operandB (b.zeroExtend 16) = b := by
    ext j hj
    simp [operandB, hj, Nat.lt_trans hj (by decide : 8 < 16)]
  simp only [operandB, BitVec.extractLsb'_or] at hp hb ⊢
  simp [hp, hb]

/-- The operand is read back from the word it was put into. -/
theorem instrOf_encode (i : Instr) : i.mnemonic.row.mnemonic.instrOf (encode i) = i := by
  cases i with
  | nop => rfl
  | frx b => exact congrArg Instr.frx (operandB_or_zeroExtend (p := 0x1000) (by decide) b)
  | rrx b => exact congrArg Instr.rrx (operandB_or_zeroExtend (p := 0x2000) (by decide) b)
  | ftxb b => exact congrArg Instr.ftxb (operandB_or_zeroExtend (p := 0x3000) (by decide) b)
  | ftxd b => exact congrArg Instr.ftxd (operandB_or_zeroExtend (p := 0x4000) (by decide) b)
  | ftxe => rfl
  | rtxb m => revert m; decide
  | rtxd b => exact congrArg Instr.rtxd (operandB_or_zeroExtend (p := 0x7000) (by decide) b)
  | rtxe => rfl
  | clr t => revert t; decide

/-- Decoding the word of an operation gives the operation. -/
theorem decode_encode (i : Instr) : decode (encode i) = .op i := by
  obtain ⟨hsel, hmem⟩ := selects_encode i
  rw [decode_of_selects hmem hsel, instrOf_encode]

end Sys2Proof
end

section
/-! # The invariants of the unit records (10_state R34-R37)

Each unit's operations answer from a record that meets its invariant, and leave one that does. -/

namespace Sys2Proof.Machine

/-! ## StuffedFramer receive -/

/-- Outside phase AP the invariant is that the counters are zero. -/
theorem Frx.inv_of_phase_ne {m : Nat} {u : Frx} (hp : u.phase ≠ .ap) (hcmd : u.phase = .af → u.cmd = 0)
    (hlen : u.len = 0) (hfill : u.fill = 0) (hwf : u.buf.wf m = true) : u.Inv m :=
  ⟨fun _ => ⟨hlen, hfill⟩, hcmd, fun h => absurd h hp, hwf, hfill ▸ Memory.holds_zero _⟩

theorem Frx.Inv.wf {m : Nat} {u : Frx} : u.Inv m → u.buf.wf m = true := fun ⟨_, _, _, hwf, _⟩ => hwf

theorem Frx.inv_clear {m : Nat} {u : Frx} (hwf : u.buf.wf m = true) : u.clear.Inv m :=
  Frx.inv_of_phase_ne (by simp) (fun _ => rfl) rfl rfl hwf

theorem frxComplete_inv {m : Nat} (free : Nat → Byte) {u : Frx} (hwf : u.buf.wf m = true) :
    (frxComplete free u).1.Inv m := by
  rw [(frxComplete_cases free u).1]
  exact Frx.inv_clear hwf

/-- In phase AP the counter is inside the buffer. -/
theorem Frx.Inv.fill_lt {m : Nat} {u : Frx} (h : u.Inv m) (hp : u.phase = .ap) : u.fill.toNat < m := by
  obtain ⟨-, -, hap, -, -⟩ := h
  obtain ⟨-, hle, hlt⟩ := hap hp
  omega

/-- `FRX` keeps the invariant of `frx` (10_state R34). -/
theorem frxReceive_inv {m : Nat} {free : Nat → Byte} {b : Byte} {u u' : Frx} {es : List Emission}
    (hu : u.Inv m) (h : frxReceive m free b u = .ok (u', es)) : u'.Inv m := by
  have hput (hp : u.phase = .ap) : (u.buf.put u.fill.toNat b).wf m = true :=
    Memory.wf_put _ _ _ _ hu.wf (hu.fill_lt hp)
  obtain ⟨hzero, -, hap, hwf, hholds⟩ := id hu
  rcases frxReceive_cases m free b u u' es h with ⟨hp, -, rfl, -⟩ | ⟨-, -, rfl, -⟩ | ⟨hp, rfl, -⟩ | ⟨-, -, rfl, -⟩ |
    ⟨-, -, hc⟩ | ⟨-, hle, hne, rfl, -⟩ | ⟨hp, -, -, hc⟩ | ⟨hp, -, hne, rfl, -⟩
  · obtain ⟨hlen, hfill⟩ := hzero (by simp [hp])
    exact Frx.inv_of_phase_ne (by simp) (by simp) hlen hfill hwf
  · exact hu
  · obtain ⟨hlen, hfill⟩ := hzero (by simp [hp])
    exact Frx.inv_of_phase_ne (by simp) (by simp) hlen hfill hwf
  · exact Frx.inv_clear hwf
  · obtain rfl : u' = _ := congrArg Prod.fst hc
    exact frxComplete_inv free hwf
  · have hpos : b.toNat ≠ 0 := fun h0 => hne (BitVec.eq_of_toNat_eq h0)
    exact ⟨by simp, by simp, fun _ => ⟨by simp; omega, hle, by simp; omega⟩, hwf, Memory.holds_zero _⟩
  · obtain rfl : u' = _ := congrArg Prod.fst hc
    exact frxComplete_inv free (hput hp)
  · obtain ⟨hpos, hle, hlt⟩ := hap hp
    have hcount : (u.fill + 1).toNat = u.fill.toNat + 1 := by bv_omega
    have hnext : u.fill.toNat + 1 ≠ u.len.toNat := fun he => hne (BitVec.eq_of_toNat_eq (hcount.trans he))
    exact ⟨by simp [hp], by simp [hp], fun _ => ⟨hpos, hle, by simp only [hcount]; omega⟩, hput hp,
      hcount ▸ Memory.holds_put _ _ _ hholds⟩

/-! ## RunLengthPacketizer receive -/

/-- Outside phase BODY the invariant is that the fields are zero. -/
theorem Rrx.inv_of_phase_ne {u : Rrx} (hp : u.phase ≠ .body) (hmode : u.mode = 0) (hlen : u.len = 0)
    (hfill : u.fill = 0) (hwf : u.buf.wf rrxDepth = true) : u.Inv :=
  ⟨fun _ => ⟨hmode, hlen, hfill⟩, fun h => absurd h hp, hwf, hfill ▸ Memory.holds_zero _⟩

theorem Rrx.Inv.wf {u : Rrx} : u.Inv → u.buf.wf rrxDepth = true := fun ⟨_, _, hwf, _⟩ => hwf

theorem Rrx.inv_clear {u : Rrx} (hwf : u.buf.wf rrxDepth = true) : u.clear.Inv :=
  Rrx.inv_of_phase_ne (by simp) rfl rfl rfl hwf

theorem rrxComplete_inv (free : Nat → Byte) {u : Rrx} (hwf : u.buf.wf rrxDepth = true) :
    (rrxComplete free u).1.Inv := by
  rw [(rrxComplete_cases free u).1]
  exact Rrx.inv_clear hwf

/-- In phase BODY the counter is inside the buffer: it is below a length of six bits. -/
theorem Rrx.Inv.fill_lt {u : Rrx} (h : u.Inv) (hp : u.phase = .body) : u.fill.toNat < rrxDepth := by
  obtain ⟨-, hbody, -, -⟩ := h
  obtain ⟨-, hlt⟩ := hbody hp
  have hlen := u.len.isLt
  simp only [rrxDepth]
  omega

/-- `RRX` keeps the invariant of `rrx` (10_state R36). -/
theorem rrxReceive_inv {free : Nat → Byte} {b : Byte} {u u' : Rrx} {es : List Emission}
    (hu : u.Inv) (h : rrxReceive free b u = .ok (u', es)) : u'.Inv := by
  have hput (hp : u.phase = .body) : (u.buf.put u.fill.toNat b).wf rrxDepth = true :=
    Memory.wf_put _ _ _ _ hu.wf (hu.fill_lt hp)
  obtain ⟨hzero, hbody, hwf, hholds⟩ := id hu
  rcases rrxReceive_cases free b u u' es h with ⟨hp, -, rfl, -⟩ | ⟨-, -, rfl, -⟩ | ⟨-, -, rfl, -⟩ |
    ⟨-, -, -, rfl, -⟩ | ⟨-, -, hne, rfl, -⟩ | ⟨-, -, rfl, -⟩ | ⟨hp, -, -, -, hc⟩ | ⟨hp, -, -, hne, rfl, -⟩
  · obtain ⟨hmode, hlen, hfill⟩ := hzero (by simp [hp])
    exact Rrx.inv_of_phase_ne (by simp) hmode hlen hfill hwf
  · exact hu
  · exact hu
  · exact Rrx.inv_clear hwf
  · have hpos : (lengthField b).toNat ≠ 0 := fun h0 => hne (BitVec.eq_of_toNat_eq h0)
    exact ⟨by simp, fun _ => ⟨by simp; omega, by simp; omega⟩, hwf, Memory.holds_zero _⟩
  · exact Rrx.inv_of_phase_ne (by simp) rfl rfl rfl hwf
  · obtain rfl : u' = _ := congrArg Prod.fst hc
    exact rrxComplete_inv free (hput hp)
  · obtain ⟨hpos, hlt⟩ := hbody hp
    have hcount : (u.fill + 1).toNat = u.fill.toNat + 1 := by bv_omega
    have hnext : u.fill.toNat + 1 ≠ u.len.toNat := fun he => hne (BitVec.eq_of_toNat_eq (hcount.trans he))
    exact ⟨by simp [hp], fun _ => ⟨hpos, by simp only [hcount]; omega⟩, hput hp,
      hcount ▸ Memory.holds_put _ _ _ hholds⟩

/-! ## StuffedFramer transmit -/

theorem Ftx.Inv.wf {m : Nat} {u : Ftx} : u.Inv m → u.buf.wf m = true := fun ⟨_, _, _, hwf, _⟩ => hwf

theorem Ftx.inv_clear {m : Nat} {u : Ftx} (hwf : u.buf.wf m = true) : u.clear.Inv m :=
  ⟨fun _ => ⟨rfl, rfl, rfl⟩, Nat.zero_le _, by simp, hwf, Memory.holds_zero _⟩

/-- `FTXB` keeps the invariant of `ftx` (10_state R35). -/
theorem ftxBegin_inv {m : Nat} (c : Byte) {u : Ftx} (hu : u.Inv m) : (ftxBegin c u).1.Inv m := by
  exact ⟨by simp [ftxBegin], Nat.zero_le _, by simp [ftxBegin], hu.wf, Memory.holds_zero _⟩

/-- `FTXD` keeps the invariant of `ftx` (10_state R35); a buffer depth fits the counter. -/
theorem ftxData_inv {m : Nat} (hm : m < 256) (b : Byte) {u : Ftx} (hu : u.Inv m) : (ftxData m b u).1.Inv m := by
  obtain ⟨-, hn, hover, hwf, hholds⟩ := id hu
  rcases ftxData_cases m b u with ⟨-, he⟩ | ⟨ha, hlt, he⟩ | ⟨ha, hle, he⟩ <;> rw [he]
  · exact hu
  · have hcount : (u.n + 1).toNat = u.n.toNat + 1 := by bv_omega
    exact ⟨by simp [ha], by simp only [hcount]; omega, fun ho => absurd (hover ho) (Nat.ne_of_lt hlt),
      Memory.wf_put _ _ _ _ hwf hlt, hcount ▸ Memory.holds_put _ _ _ hholds⟩
  · exact ⟨by simp [ha], hn, fun _ => Nat.le_antisymm hn hle, hwf, hholds⟩

/-- `FTXE` keeps the invariant of `ftx` (10_state R35). -/
theorem ftxEnd_inv {m : Nat} (free : Nat → Byte) {u : Ftx} (hu : u.Inv m) : (ftxEnd free u).1.Inv m := by
  rcases ftxEnd_cases free u with ⟨-, he⟩ | ⟨-, -, he⟩ | ⟨-, r, -, -, -, he⟩ <;> rw [he]
  · exact hu
  · exact Ftx.inv_clear hu.wf
  · exact Ftx.inv_clear hu.wf

/-! ## RunLengthPacketizer transmit -/

theorem Rtx.Inv.wf {u : Rtx} : u.Inv → u.buf.wf rtxDepth = true := fun ⟨_, _, _, hwf, _⟩ => hwf

theorem Rtx.inv_clear {u : Rtx} (hwf : u.buf.wf rtxDepth = true) : u.clear.Inv :=
  ⟨fun _ => ⟨rfl, rfl, rfl⟩, Nat.zero_le _, by simp, hwf, Memory.holds_zero _⟩

/-- `RTXB` keeps the invariant of `rtx` (10_state R37). -/
theorem rtxBegin_inv (m : Mode) {u : Rtx} (hu : u.Inv) : (rtxBegin m u).1.Inv := by
  exact ⟨by simp [rtxBegin], Nat.zero_le _, by simp [rtxBegin], hu.wf, Memory.holds_zero _⟩

/-- `RTXD` keeps the invariant of `rtx` (10_state R37). -/
theorem rtxData_inv (b : Byte) {u : Rtx} (hu : u.Inv) : (rtxData b u).1.Inv := by
  obtain ⟨-, hn, hover, hwf, hholds⟩ := id hu
  rcases rtxData_cases b u with ⟨-, he⟩ | ⟨ha, hlt, he⟩ | ⟨ha, hle, he⟩ <;> rw [he]
  · exact hu
  · have hdepth : rtxDepth = 62 := rfl
    have hcount : (u.n + 1).toNat = u.n.toNat + 1 := by bv_omega
    exact ⟨by simp [ha], by simp only [hcount]; omega, fun ho => absurd (hover ho) (Nat.ne_of_lt hlt),
      Memory.wf_put _ _ _ _ hwf hlt, hcount ▸ Memory.holds_put _ _ _ hholds⟩
  · exact ⟨by simp [ha], hn, fun _ => Nat.le_antisymm hn hle, hwf, hholds⟩

/-- `RTXE` keeps the invariant of `rtx` (10_state R37). -/
theorem rtxEnd_inv (free : Nat → Byte) {u : Rtx} (hu : u.Inv) : (rtxEnd free u).1.Inv := by
  rcases rtxEnd_cases free u with ⟨-, he⟩ | ⟨-, -, he⟩ | ⟨-, r, -, -, he⟩ <;> rw [he]
  · exact hu
  · exact Rtx.inv_clear hu.wf
  · exact Rtx.inv_clear hu.wf

/-! ## The whole block -/

/-- `CLR` keeps the invariants, whichever units it clears. -/
theorem State.Inv.clearUnits {s : State} (hs : s.Inv) (t : UnitMask) : (s.clearUnits t).Inv := by
  obtain ⟨hm, hfrx, hftx, hrrx, hrtx⟩ := hs
  refine ⟨hm, ?_, ?_, ?_, ?_⟩
  · rw [State.clearUnits_frx]
    split
    · exact Frx.inv_clear hfrx.wf
    · exact hfrx
  · rw [State.clearUnits_ftx]
    split
    · exact Ftx.inv_clear hftx.wf
    · exact hftx
  · rw [State.clearUnits_rrx]
    split
    · exact Rrx.inv_clear hrrx.wf
    · exact hrrx
  · rw [State.clearUnits_rtx]
    split
    · exact Rtx.inv_clear hrtx.wf
    · exact hrtx

/-- Every operation keeps the invariants of a launch state (10_state R34-R37). -/
theorem instrEffect_inv {i : Instr} {s u : State} {es : List Emission} (hs : s.Inv)
    (h : instrEffect i s = .ok (u, es)) : u.Inv := by
  obtain ⟨hm, hfrx, hftx, hrrx, hrtx⟩ := id hs
  rcases instrEffect_ok i s u es h with ⟨-, rfl, -⟩ | ⟨b, r, -, hr, rfl⟩ | ⟨b, r, -, hr, rfl⟩ | ⟨b, -, rfl, -⟩ |
    ⟨b, -, rfl, -⟩ | ⟨-, rfl, -⟩ | ⟨m, -, rfl, -⟩ | ⟨b, -, rfl, -⟩ | ⟨-, rfl, -⟩ | ⟨t, -, rfl, -⟩
  · exact hs
  · exact ⟨hm, frxReceive_inv hfrx hr, hftx, hrrx, hrtx⟩
  · exact ⟨hm, hfrx, hftx, rrxReceive_inv hrrx hr, hrtx⟩
  · exact ⟨hm, hfrx, ftxBegin_inv b hftx, hrrx, hrtx⟩
  · exact ⟨hm, hfrx, ftxData_inv s.maxPayload.isLt b hftx, hrrx, hrtx⟩
  · exact ⟨hm, hfrx, ftxEnd_inv _ hftx, hrrx, hrtx⟩
  · exact ⟨hm, hfrx, hftx, hrrx, rtxBegin_inv m hrtx⟩
  · exact ⟨hm, hfrx, hftx, hrrx, rtxData_inv b hrtx⟩
  · exact ⟨hm, hfrx, hftx, hrrx, rtxEnd_inv _ hrtx⟩
  · exact hs.clearUnits t

/-- From a state that meets the invariants every operation has an effect (60_exceptions R260). -/
theorem instrEffect_ok_of_inv {s : State} (hs : s.Inv) (i : Instr) : ∃ u es, instrEffect i s = .ok (u, es) := by
  obtain ⟨-, hfrx, -, hrrx, -⟩ := hs
  cases i with
  | frx b =>
    obtain ⟨r, hr⟩ := frxReceive_ok s.maxPayload.val (s.unwritten .frx) b s.frx hfrx.fill_lt
    exact ⟨s.setFrx r.1, r.2, by simp [instrEffect, frxEffect, hr, Except.map]⟩
  | rrx b =>
    obtain ⟨r, hr⟩ := rrxReceive_ok (s.unwritten .rrx) b s.rrx hrrx.fill_lt
    exact ⟨s.setRrx r.1, r.2, by simp [instrEffect, rrxEffect, hr, Except.map]⟩
  | nop | ftxb _ | ftxd _ | ftxe | rtxb _ | rtxd _ | rtxe | clr _ => exact ⟨_, _, rfl⟩

end Sys2Proof.Machine
end

section
/-! # What a unit puts on the ports (60_exceptions R274)

Every value an operation emits is from a unit the operation is addressed to, so the values that are from a unit are
those of its own operations. -/

namespace Sys2Proof.Machine

/-- The unit a value on a port is from: `FW` and `RW` are a transmitter's own (30_encoding R85). -/
def Emission.source : Emission → Option UnitId
  | .fw _ => some .ftx
  | .rw _ => some .rtx
  | .dlv d => some d.deliveredBy
  | .diag e => e.raisedBy
  | .res r => some r.reportedBy

/-- The traces with only the values that are from the unit. -/
def Ports.ofUnit (unit : UnitId) (p : Ports) : Ports :=
  { fw := if unit = .ftx then p.fw else []
    rw := if unit = .rtx then p.rw else []
    dlv := p.dlv.filter fun d => d.deliveredBy == unit
    diag := p.diag.filter fun e => e.raisedBy == some unit
    res := p.res.filter fun r => r.reportedBy == unit }

/-- Two states agree on a unit when they agree on its record and on the traces of its values. -/
theorem State.agreeOn_iff (unit : UnitId) (s t : State) :
    State.AgreeOn unit s t ↔ State.SameRecord unit s t ∧ s.ports.ofUnit unit = t.ports.ofUnit unit := by
  cases unit <;> simp [State.AgreeOn, Ports.ofUnit, and_comm, and_left_comm]

/-- Emitting a value extends the traces of the unit it is from and no other unit's. -/
theorem Ports.ofUnit_emit (unit : UnitId) (p : Ports) (e : Emission) :
    (p.emit e).ofUnit unit = if e.source = some unit then (p.ofUnit unit).emit e else p.ofUnit unit := by
  cases e with
  | fw b => cases unit <;> simp [Ports.ofUnit, Ports.emit, Emission.source]
  | rw b => cases unit <;> simp [Ports.ofUnit, Ports.emit, Emission.source]
  | dlv d => by_cases h : d.deliveredBy = unit <;> simp [Ports.ofUnit, Ports.emit, Emission.source, h]
  | diag d => by_cases h : d.raisedBy = some unit <;> simp [Ports.ofUnit, Ports.emit, Emission.source, h]
  | res r => by_cases h : r.reportedBy = unit <;> simp [Ports.ofUnit, Ports.emit, Emission.source, h]

/-- The traces of a unit after the same values depend only on its traces before. -/
theorem Ports.ofUnit_emitAll_congr (unit : UnitId) {p q : Ports} (h : p.ofUnit unit = q.ofUnit unit)
    (es : List Emission) : (p.emitAll es).ofUnit unit = (q.emitAll es).ofUnit unit := by
  induction es generalizing p q with
  | nil => exact h
  | cons e es ih => exact ih (by rw [Ports.ofUnit_emit, Ports.ofUnit_emit, h])

/-- Values that are from other units leave the traces of a unit alone. -/
theorem Ports.ofUnit_emitAll_of_source_ne (unit : UnitId) (p : Ports) (es : List Emission)
    (h : ∀ e ∈ es, e.source ≠ some unit) : (p.emitAll es).ofUnit unit = p.ofUnit unit := by
  induction es generalizing p with
  | nil => rfl
  | cons e es ih =>
    obtain ⟨he, hes⟩ := List.forall_mem_cons.1 h
    calc ((p.emit e).emitAll es).ofUnit unit
        = (p.emit e).ofUnit unit := ih _ hes
      _ = p.ofUnit unit := by rw [Ports.ofUnit_emit, if_neg he]

/-! ## The values of each unit's operations -/

theorem frxComplete_source (free : Nat → Byte) (u : Frx) :
    ∀ e ∈ (frxComplete free u).2, e.source = some .frx := by
  obtain ⟨-, ⟨p, -, he⟩ | ⟨i, -, he⟩ | ⟨i, -, he⟩⟩ := frxComplete_cases free u <;> rw [he] <;>
    exact List.forall_mem_singleton.2 rfl

theorem frxReceive_source {m : Nat} {free : Nat → Byte} {b : Byte} {u u' : Frx} {es : List Emission}
    (h : frxReceive m free b u = .ok (u', es)) : ∀ e ∈ es, e.source = some .frx := by
  rcases frxReceive_cases m free b u u' es h with ⟨-, -, -, rfl⟩ | ⟨-, -, -, rfl⟩ | ⟨-, -, rfl⟩ | ⟨-, -, -, rfl⟩ |
    ⟨-, -, hc⟩ | ⟨-, -, -, -, rfl⟩ | ⟨-, -, -, hc⟩ | ⟨-, -, -, -, rfl⟩
  · exact List.forall_mem_nil _
  · exact List.forall_mem_singleton.2 rfl
  · exact List.forall_mem_nil _
  · exact List.forall_mem_singleton.2 rfl
  · obtain rfl : es = _ := congrArg Prod.snd hc
    exact frxComplete_source free _
  · exact List.forall_mem_nil _
  · obtain rfl : es = _ := congrArg Prod.snd hc
    exact frxComplete_source free _
  · exact List.forall_mem_nil _

theorem rrxComplete_source (free : Nat → Byte) (u : Rrx) :
    ∀ e ∈ (rrxComplete free u).2, e.source = some .rrx := by
  obtain ⟨-, ⟨p, -, he⟩ | ⟨i, -, he⟩⟩ := rrxComplete_cases free u <;> rw [he] <;>
    exact List.forall_mem_singleton.2 rfl

theorem rrxReceive_source {free : Nat → Byte} {b : Byte} {u u' : Rrx} {es : List Emission}
    (h : rrxReceive free b u = .ok (u', es)) : ∀ e ∈ es, e.source = some .rrx := by
  rcases rrxReceive_cases free b u u' es h with ⟨-, -, -, rfl⟩ | ⟨-, -, -, rfl⟩ | ⟨-, -, -, rfl⟩ |
    ⟨-, -, -, -, rfl⟩ | ⟨-, -, -, -, rfl⟩ | ⟨-, -, -, rfl⟩ | ⟨-, -, -, -, hc⟩ | ⟨-, -, -, -, -, rfl⟩
  · exact List.forall_mem_nil _
  · exact List.forall_mem_singleton.2 rfl
  · exact List.forall_mem_nil _
  · exact List.forall_mem_singleton.2 rfl
  · exact List.forall_mem_nil _
  · exact List.forall_mem_singleton.2 rfl
  · obtain rfl : es = _ := congrArg Prod.snd hc
    exact rrxComplete_source free _
  · exact List.forall_mem_nil _

theorem ftxBegin_source (c : Byte) (u : Ftx) : ∀ e ∈ (ftxBegin c u).2, e.source = some .ftx := by
  cases h : u.active <;> simp [ftxBegin, h, diag, Emission.source, Diag.raisedBy]

theorem ftxData_source (m : Nat) (b : Byte) (u : Ftx) : ∀ e ∈ (ftxData m b u).2, e.source = some .ftx := by
  rcases ftxData_cases m b u with ⟨-, he⟩ | ⟨-, -, he⟩ | ⟨-, -, he⟩ <;> rw [he]
  · exact List.forall_mem_singleton.2 rfl
  · exact List.forall_mem_nil _
  · exact List.forall_mem_nil _

theorem ftxEnd_source (free : Nat → Byte) (u : Ftx) : ∀ e ∈ (ftxEnd free u).2, e.source = some .ftx := by
  rcases ftxEnd_cases free u with ⟨-, he⟩ | ⟨-, -, he⟩ | ⟨-, r, -, -, -, he⟩ <;> rw [he]
  · exact List.forall_mem_cons.2 ⟨rfl, List.forall_mem_singleton.2 rfl⟩
  · exact List.forall_mem_append.2 ⟨List.forall_mem_map.2 fun _ _ => rfl, List.forall_mem_singleton.2 rfl⟩
  · exact List.forall_mem_cons.2 ⟨rfl, List.forall_mem_singleton.2 rfl⟩

/-- The info of `RTXB`'s diagnostic is not below 0x60, which tells it from the framer's (30_encoding R88). -/
theorem rtxbSeqInfo_ge (m : Mode) : 0x60 ≤ (rtxbSeqInfo m).toNat := by
  revert m
  decide

theorem rtxBegin_source (m : Mode) (u : Rtx) : ∀ e ∈ (rtxBegin m u).2, e.source = some .rtx := by
  cases h : u.active <;> simp [rtxBegin, h, diag, Emission.source, Diag.raisedBy, rtxbSeqInfo_ge]

theorem rtxData_source (b : Byte) (u : Rtx) : ∀ e ∈ (rtxData b u).2, e.source = some .rtx := by
  rcases rtxData_cases b u with ⟨-, he⟩ | ⟨-, -, he⟩ | ⟨-, -, he⟩ <;> rw [he]
  · exact List.forall_mem_singleton.2 rfl
  · exact List.forall_mem_nil _
  · exact List.forall_mem_nil _

theorem rtxEnd_source (free : Nat → Byte) (u : Rtx) : ∀ e ∈ (rtxEnd free u).2, e.source = some .rtx := by
  rcases rtxEnd_cases free u with ⟨-, he⟩ | ⟨-, -, he⟩ | ⟨-, r, -, -, he⟩ <;> rw [he]
  · exact List.forall_mem_cons.2 ⟨rfl, List.forall_mem_singleton.2 rfl⟩
  · exact List.forall_mem_append.2 ⟨List.forall_mem_map.2 fun _ _ => rfl, List.forall_mem_singleton.2 rfl⟩
  · exact List.forall_mem_cons.2 ⟨rfl, List.forall_mem_singleton.2 rfl⟩

/-- Every value an operation emits is from a unit it is addressed to. -/
theorem instrEffect_source {i : Instr} {s u : State} {es : List Emission} (h : instrEffect i s = .ok (u, es)) :
    ∀ e ∈ es, ∃ unit, e.source = some unit ∧ addresses unit i = true := by
  intro e he
  rcases instrEffect_ok i s u es h with ⟨-, -, rfl⟩ | ⟨b, r, rfl, hr, -⟩ | ⟨b, r, rfl, hr, -⟩ | ⟨b, rfl, -, rfl⟩ |
    ⟨b, rfl, -, rfl⟩ | ⟨rfl, -, rfl⟩ | ⟨m, rfl, -, rfl⟩ | ⟨b, rfl, -, rfl⟩ | ⟨rfl, -, rfl⟩ | ⟨t, -, -, rfl⟩
  · exact absurd he List.not_mem_nil
  · exact ⟨.frx, frxReceive_source hr e he, rfl⟩
  · exact ⟨.rrx, rrxReceive_source hr e he, rfl⟩
  · exact ⟨.ftx, ftxBegin_source _ _ e he, rfl⟩
  · exact ⟨.ftx, ftxData_source _ _ _ e he, rfl⟩
  · exact ⟨.ftx, ftxEnd_source _ _ e he, rfl⟩
  · exact ⟨.rtx, rtxBegin_source _ _ e he, rfl⟩
  · exact ⟨.rtx, rtxData_source _ _ e he, rfl⟩
  · exact ⟨.rtx, rtxEnd_source _ _ e he, rfl⟩
  · exact absurd he List.not_mem_nil

end Sys2Proof.Machine
end

section
/-! # Units do not interfere (60_exceptions R274; 41_framer_rx R113; 43_rl_rx R182)

The run of a sequence and the run of one unit's part of it go side by side: an operation addressed to the unit does the
same in both, and any other leaves in the first run everything alone on which they agree. -/

namespace Sys2Proof.Machine

/-! ## Records -/

theorem State.SameRecord.refl (unit : UnitId) (s : State) : State.SameRecord unit s s := by cases unit <;> rfl

theorem State.SameRecord.trans {unit : UnitId} {s t u : State} (h : State.SameRecord unit s t)
    (h' : State.SameRecord unit t u) : State.SameRecord unit s u := by
  cases unit <;> exact Eq.trans h h'

theorem State.sameRecord_setFrx {unit : UnitId} (h : unit ≠ .frx) (s : State) (r : Frx) :
    State.SameRecord unit (s.setFrx r) s := by
  cases unit
  case frx => exact absurd rfl h
  all_goals rfl

theorem State.sameRecord_setFtx {unit : UnitId} (h : unit ≠ .ftx) (s : State) (r : Ftx) :
    State.SameRecord unit (s.setFtx r) s := by
  cases unit
  case ftx => exact absurd rfl h
  all_goals rfl

theorem State.sameRecord_setRrx {unit : UnitId} (h : unit ≠ .rrx) (s : State) (r : Rrx) :
    State.SameRecord unit (s.setRrx r) s := by
  cases unit
  case rrx => exact absurd rfl h
  all_goals rfl

theorem State.sameRecord_setRtx {unit : UnitId} (h : unit ≠ .rtx) (s : State) (r : Rtx) :
    State.SameRecord unit (s.setRtx r) s := by
  cases unit
  case rtx => exact absurd rfl h
  all_goals rfl

theorem State.sameRecord_clearUnits {unit : UnitId} {t : UnitMask} (h : maskSelects t unit = false) (s : State) :
    State.SameRecord unit (s.clearUnits t) s := by
  cases unit <;> simp [State.SameRecord, h]

/-- A clear does the same to equal records. -/
theorem State.SameRecord.clearUnits {unit : UnitId} {s v : State} (h : State.SameRecord unit s v) (t : UnitMask) :
    State.SameRecord unit (s.clearUnits t) (v.clearUnits t) := by
  cases unit <;> simp only [State.SameRecord] at h <;> simp [State.SameRecord, h]

/-! ## One operation -/

/-- An operation that is not addressed to a unit leaves its record alone. -/
theorem instrEffect_sameRecord_of_not_addressed {unit : UnitId} {i : Instr} {s u : State} {es : List Emission}
    (ha : addresses unit i = false) (h : instrEffect i s = .ok (u, es)) : State.SameRecord unit u s := by
  rcases instrEffect_ok i s u es h with ⟨-, rfl, -⟩ | ⟨b, r, rfl, -, rfl⟩ | ⟨b, r, rfl, -, rfl⟩ | ⟨b, rfl, rfl, -⟩ |
    ⟨b, rfl, rfl, -⟩ | ⟨rfl, rfl, -⟩ | ⟨m, rfl, rfl, -⟩ | ⟨b, rfl, rfl, -⟩ | ⟨rfl, rfl, -⟩ | ⟨t, rfl, rfl, -⟩
  · exact State.SameRecord.refl _ _
  · exact State.sameRecord_setFrx (ne_of_beq_false ha) _ _
  · exact State.sameRecord_setRrx (ne_of_beq_false ha) _ _
  · exact State.sameRecord_setFtx (ne_of_beq_false ha) _ _
  · exact State.sameRecord_setFtx (ne_of_beq_false ha) _ _
  · exact State.sameRecord_setFtx (ne_of_beq_false ha) _ _
  · exact State.sameRecord_setRtx (ne_of_beq_false ha) _ _
  · exact State.sameRecord_setRtx (ne_of_beq_false ha) _ _
  · exact State.sameRecord_setRtx (ne_of_beq_false ha) _ _
  · exact State.sameRecord_clearUnits ha _

/-- An operation that is not addressed to a unit emits nothing that is from it. -/
theorem instrEffect_source_ne_of_not_addressed {unit : UnitId} {i : Instr} {s u : State} {es : List Emission}
    (ha : addresses unit i = false) (h : instrEffect i s = .ok (u, es)) : ∀ e ∈ es, e.source ≠ some unit := by
  intro e he hsrc
  obtain ⟨unit', hsrc', ha'⟩ := instrEffect_source h e he
  obtain rfl : unit = unit' := Option.some.inj (hsrc.symm.trans hsrc')
  exact absurd ha' (by simp [ha])

/-- An operation addressed to a unit does the same to its record, and emits the same, in a block of the same build
whose free values are the same (log entry 2). -/
theorem instrEffect_congr_of_addressed {unit : UnitId} {i : Instr} {s v u : State} {es : List Emission}
    (ha : addresses unit i = true) (hm : s.maxPayload = v.maxPayload) (hres : s.resets = v.resets)
    (hrec : State.SameRecord unit s v) (h : instrEffect i s = .ok (u, es)) :
    ∃ w, instrEffect i v = .ok (w, es) ∧ State.SameRecord unit u w := by
  have hfree (x : UnitId) : s.unwritten x = v.unwritten x := by simp only [State.unwritten, hres]
  rcases instrEffect_ok i s u es h with ⟨rfl, -, -⟩ | ⟨b, r, rfl, hr, rfl⟩ | ⟨b, r, rfl, hr, rfl⟩ |
    ⟨b, rfl, rfl, rfl⟩ | ⟨b, rfl, rfl, rfl⟩ | ⟨rfl, rfl, rfl⟩ | ⟨m, rfl, rfl, rfl⟩ | ⟨b, rfl, rfl, rfl⟩ |
    ⟨rfl, rfl, rfl⟩ | ⟨t, rfl, rfl, rfl⟩
  · exact absurd ha (by simp [addresses])
  · obtain rfl := eq_of_beq ha
    rw [hm, hfree, show s.frx = v.frx from hrec] at hr
    exact ⟨v.setFrx r, by simp [instrEffect, frxEffect, hr, Except.map], rfl⟩
  · obtain rfl := eq_of_beq ha
    rw [hfree, show s.rrx = v.rrx from hrec] at hr
    exact ⟨v.setRrx r, by simp [instrEffect, rrxEffect, hr, Except.map], rfl⟩
  · obtain rfl := eq_of_beq ha
    rw [show s.ftx = v.ftx from hrec]
    exact ⟨_, rfl, rfl⟩
  · obtain rfl := eq_of_beq ha
    rw [hm, show s.ftx = v.ftx from hrec]
    exact ⟨_, rfl, rfl⟩
  · obtain rfl := eq_of_beq ha
    rw [hfree, show s.ftx = v.ftx from hrec]
    exact ⟨_, rfl, rfl⟩
  · obtain rfl := eq_of_beq ha
    rw [show s.rtx = v.rtx from hrec]
    exact ⟨_, rfl, rfl⟩
  · obtain rfl := eq_of_beq ha
    rw [show s.rtx = v.rtx from hrec]
    exact ⟨_, rfl, rfl⟩
  · obtain rfl := eq_of_beq ha
    rw [hfree, show s.rtx = v.rtx from hrec]
    exact ⟨_, rfl, rfl⟩
  · exact ⟨_, rfl, hrec.clearUnits t⟩

/-! ## Two blocks side by side -/

/-- Two blocks alike for a unit: in all that its operations use, which is the build, the count of resets that selects
the free values (log entry 2) and the unit's record, and in what the unit has put on the ports. -/
structure State.Alike (unit : UnitId) (s v : State) : Prop where
  maxPayload : s.maxPayload = v.maxPayload
  resets : s.resets = v.resets
  record : State.SameRecord unit s v
  ports : s.ports.ofUnit unit = v.ports.ofUnit unit

theorem State.Alike.refl (unit : UnitId) (s : State) : State.Alike unit s s :=
  ⟨rfl, rfl, State.SameRecord.refl unit s, rfl⟩

theorem State.Alike.agreeOn {unit : UnitId} {s v : State} (h : State.Alike unit s v) : State.AgreeOn unit s v :=
  (State.agreeOn_iff unit s v).2 ⟨h.record, h.ports⟩

/-- What the host does next, and how much it has done, is no matter. -/
theorem State.Alike.input_opIndex {unit : UnitId} {s v : State} (h : State.Alike unit s v)
    (is js : List InputEvent) (n k : Nat) :
    State.Alike unit { s with input := is, opIndex := n } { v with input := js, opIndex := k } :=
  ⟨h.maxPayload, h.resets, by cases unit <;> exact h.record, h.ports⟩

/-- An operation addressed to the unit keeps two blocks alike. -/
theorem State.Alike.of_addressed {unit : UnitId} {i : Instr} {s v u : State} {es : List Emission}
    (hsv : State.Alike unit s v) (ha : addresses unit i = true) (h : instrEffect i s = .ok (u, es)) :
    ∃ w, instrEffect i v = .ok (w, es) ∧ State.Alike unit (u.emitAll es) (w.emitAll es) := by
  obtain ⟨w, hw, hrec⟩ := instrEffect_congr_of_addressed ha hsv.maxPayload hsv.resets hsv.record h
  obtain ⟨hup, hum, -, -, hur⟩ := instrEffect_frame _ _ _ _ h
  obtain ⟨hwp, hwm, -, -, hwr⟩ := instrEffect_frame _ _ _ _ hw
  refine ⟨w, hw, ⟨?_, ?_, ?_, ?_⟩⟩
  · exact hum.trans (hsv.maxPayload.trans hwm.symm)
  · exact hur.trans (hsv.resets.trans hwr.symm)
  · cases unit <;> exact hrec
  · exact Ports.ofUnit_emitAll_congr unit (by rw [hup, hwp, hsv.ports]) es

/-- An operation not addressed to the unit, done in one of two alike blocks, leaves them alike. -/
theorem State.Alike.of_not_addressed {unit : UnitId} {i : Instr} {s v u : State} {es : List Emission}
    (hsv : State.Alike unit s v) (ha : addresses unit i = false) (h : instrEffect i s = .ok (u, es)) :
    State.Alike unit (u.emitAll es) v := by
  have hrec := (instrEffect_sameRecord_of_not_addressed ha h).trans hsv.record
  obtain ⟨hup, hum, -, -, hur⟩ := instrEffect_frame _ _ _ _ h
  refine ⟨hum.trans hsv.maxPayload, hur.trans hsv.resets, ?_, ?_⟩
  · cases unit <;> exact hrec
  · calc (u.ports.emitAll es).ofUnit unit
        = u.ports.ofUnit unit :=
          Ports.ofUnit_emitAll_of_source_ne unit _ es (instrEffect_source_ne_of_not_addressed ha h)
      _ = v.ports.ofUnit unit := by rw [hup, hsv.ports]

/-! ## Runs -/

/-- A step at a word that decodes to an operation executes it (30_encoding R70). -/
theorem step_of_decode_op {s : State} {w : Word} {rest : List InputEvent} {i : Instr}
    (hi : s.input = .word w :: rest) (hd : decode w = .op i) : step s = exec i (s.accept rest) := by
  simp only [step, hi, hd]

theorem State.offering_of_input_eq {s : State} {is : List Instr} (h : s.input = offer is) : s.offering is = s := by
  simp only [State.offering, ← h]

/-- A run of offered operations goes on from what the first one leaves. -/
theorem runToEnd_offering_cons {i : Instr} {is : List Instr} {s u : State} {es : List Emission}
    (h : instrEffect i (s.accept (offer is)) = .ok (u, es)) :
    runToEnd (s.offering (i :: is)) = runToEnd ((u.emitAll es).offering is) := by
  have hstep : step (s.offering (i :: is)) = .next (u.emitAll es) := by
    rw [step_of_decode_op (rest := offer is) rfl (decode_encode i), exec_eq_complete]
    exact congrArg Effect.complete h
  obtain ⟨-, -, hinput, -, -⟩ := instrEffect_frame _ _ _ _ h
  rw [runToEnd_step _ _ (List.cons_ne_nil _ _) hstep, State.offering_of_input_eq (s := u.emitAll es) hinput]

/-- Of two blocks alike for a unit, one is offered a sequence and the other the unit's part of it: both runs end, in
blocks that agree on the unit. -/
theorem State.Alike.runs_agree {unit : UnitId} {s v : State} (hs : s.Inv) (hsv : State.Alike unit s v)
    (is : List Instr) :
    ∃ t w, runToEnd (s.offering is) = .next t ∧ runToEnd (v.offering (is.filter (addresses unit))) = .next w ∧
      State.AgreeOn unit t w := by
  induction is generalizing s v with
  | nil => exact ⟨_, _, runToEnd_nil _ rfl, runToEnd_nil _ rfl, (hsv.input_opIndex [] [] _ _).agreeOn⟩
  | cons i is ih =>
    obtain ⟨u, es, hu⟩ := instrEffect_ok_of_inv (s := s.accept (offer is)) hs i
    have huinv : (u.emitAll es).Inv := (instrEffect_inv (s := s.accept (offer is)) hs hu : u.Inv)
    rw [runToEnd_offering_cons hu]
    cases ha : addresses unit i with
    | true =>
      obtain ⟨w, hw, huw⟩ := (hsv.input_opIndex _ (offer (is.filter (addresses unit))) _ _).of_addressed ha hu
      rw [List.filter_cons_of_pos ha, runToEnd_offering_cons hw]
      exact ih huinv huw
    | false =>
      have huv : State.Alike unit (u.emitAll es) v := (hsv.input_opIndex _ v.input _ v.opIndex).of_not_addressed ha hu
      rw [List.filter_cons_of_neg (by simp [ha])]
      exact ih huinv huv

/-- Settles O21: the whole run and the run of the unit's own operations are run side by side from the same state, and
stay alike for the unit. -/
theorem unitsDependOnlyOnOwnOperations : Obligations.UnitsDependOnlyOnOwnOperations := by
  intro unit s is hs
  exact (State.Alike.refl unit s).runs_agree hs is

end Sys2Proof.Machine
end

section
/-! # The state under a step (10_state R21-R37, 70_reset R290-R294)

What power-on, the reset input, and a word, an illegal one included, do to the state as a whole. -/

namespace Sys2Proof.Machine

/-! ## The invariants -/

/-- Units at their reset values meet the invariants, whatever else the state holds. -/
theorem State.inv_of_units_eq_initial {s : State} (hm : 1 ≤ s.maxPayload.val) (hfrx : s.frx = Frx.initial)
    (hftx : s.ftx = Ftx.initial) (hrrx : s.rrx = Rrx.initial) (hrtx : s.rtx = Rtx.initial) : s.Inv := by
  rw [State.Inv, hfrx, hftx, hrrx, hrtx]
  exact ⟨hm, Frx.inv_clear (u := Frx.initial) (Memory.wf_nil _), Ftx.inv_clear (u := Ftx.initial) (Memory.wf_nil _),
    Rrx.inv_clear (u := Rrx.initial) (Memory.wf_nil _), Rtx.inv_clear (u := Rtx.initial) (Memory.wf_nil _)⟩

/-- After the reset input only the range of `MAX_PAYLOAD` is owed to the state before it (70_reset R291). -/
theorem State.assertReset_inv {s : State} (hm : 1 ≤ s.maxPayload.val) : s.assertReset.Inv :=
  State.inv_of_units_eq_initial hm rfl rfl rfl rfl

/-- Every word keeps the invariants, an illegal one included (45_control R244). -/
theorem decodedEffect_inv {d : Decoded} {s u : State} {es : List Emission} (hs : s.Inv)
    (h : decodedEffect d s = .ok (u, es)) : u.Inv := by
  cases d with
  | op i => exact instrEffect_inv hs h
  | illegal info =>
    obtain ⟨rfl, -⟩ := Prod.mk.inj (Except.ok.inj h)
    exact hs

/-- Settles O14: a word keeps the invariants through its effect, and the reset input, between operations or during
one, leaves units at their reset values. -/
theorem stepKeepsInvariant : Obligations.StepKeepsInvariant := by
  intro s t hs h
  obtain ⟨hm, -, -, -, -⟩ := id hs
  rcases step_cases s t h with ⟨-, rfl⟩ | ⟨w, rest, u, es, -, he, rfl⟩ | ⟨rest, -, rfl⟩ | ⟨w, rest, u, es, -, -, rfl⟩
  · exact hs
  · exact (decodedEffect_inv (s := s.accept rest) hs he : u.Inv)
  · exact State.assertReset_inv hm
  · exact State.assertReset_inv hm

/-- Settles O13: the units are at their reset values, and the build's `MAX_PAYLOAD` is a successor. -/
theorem resetMeetsInvariant : Obligations.ResetMeetsInvariant :=
  State.inv_of_units_eq_initial (Nat.succ_pos Config.maxPayloadPred.val) rfl rfl rfl rfl

/-! ## Power-on and the build parameter -/

/-- The reset values of the units are their initial states (10_state R29). -/
theorem State.resetWith_unitsInitial (m : Fin 256) : (State.resetWith m).UnitsInitial :=
  ⟨⟨rfl, rfl, rfl, rfl⟩, ⟨rfl, rfl, rfl, rfl⟩, ⟨rfl, rfl, rfl, rfl⟩, ⟨rfl, rfl, rfl, rfl⟩⟩

/-- Settles O10: `State.reset` is the power-on state of one build, and that of every build has these values. -/
theorem powerOnStateIsInitial : Obligations.PowerOnStateIsInitial := by
  intro m s hs
  obtain ⟨build, rfl⟩ : ∃ build, s = State.resetWith build := hs.elim (⟨m, ·⟩) (⟨Config.maxPayload, ·⟩)
  exact ⟨⟨State.resetWith_unitsInitial build, rfl⟩, rfl, rfl, fun _ => ⟨rfl, rfl, rfl, rfl⟩⟩

/-- Settles O16: neither a word's effect nor the reset input touches the build parameter. -/
theorem buildParameterNeverChanges : Obligations.BuildParameterNeverChanges := by
  intro s t h
  rcases step_cases s t h with ⟨-, rfl⟩ | ⟨w, rest, u, es, -, he, rfl⟩ | ⟨rest, -, rfl⟩ | ⟨w, rest, u, es, -, -, rfl⟩
  · rfl
  · obtain ⟨-, hm, -, -, -⟩ := decodedEffect_frame _ _ _ _ he
    exact hm
  · rfl
  · rfl

/-! ## Words -/

/-- Settles O7: a step at a decoded word executes it at the state that has accepted the word. -/
theorem stepRunsDecodedWord : Obligations.StepRunsDecodedWord :=
  fun _ _ _ _ hi hd => step_of_decode_op hi hd

/-- A word that no row selects decodes to an illegal word with its bits 15:8 (30_encoding R75, R76). -/
theorem decode_of_not_selected {w : Word} (h : ∀ r ∈ opRows, w &&& r.mask ≠ r.pattern) :
    decode w = .illegal (highByte w) := by
  have hfind : opRows.find? (fun r => r.selects w) = none :=
    List.find?_eq_none.2 fun r hr => by simpa [OpRow.selects] using h r hr
  simp only [decode, hfind]

/-- A step at an illegal word reports it, at the state that has accepted it (45_control R244). -/
theorem step_of_decode_illegal {s : State} {w : Word} {rest : List InputEvent} {info : Byte}
    (hi : s.input = .word w :: rest) (hd : decode w = .illegal info) :
    step s = .next ((s.accept rest).emitAll [diag .illegalOp info]) := by
  simp only [step, hi, hd, execIllegal, illegalEffect, Effect.complete_ok]

/-- Settles O8: the word decodes to an illegal one, whose only emission is the `ILLEGAL_OP` event. -/
theorem illegalWordReportsAndGoesOn : Obligations.IllegalWordReportsAndGoesOn :=
  fun _ _ _ hi hrows => step_of_decode_illegal hi (decode_of_not_selected hrows)

/-! ## The run-length boundary byte -/

/-- A 0x00 is accepted in every phase, and leaves `rrx` in phase LEN with an empty body (43_rl_rx R180). -/
theorem rrxReceive_zero (free : Nat → Byte) {u : Rrx} (hu : u.Inv) :
    ∃ u' es, rrxReceive free 0 u = .ok (u', es) ∧ u'.phase = .len ∧ u'.fill = 0 := by
  obtain ⟨hzero, -, -, -⟩ := hu
  have hfill (hp : u.phase ≠ .body) : u.fill = 0 := by
    obtain ⟨-, -, hf⟩ := hzero hp
    exact hf
  unfold rrxReceive
  split
  next hp => exact ⟨_, _, rfl, rfl, hfill (by simp [hp])⟩
  next hp => exact ⟨_, _, rfl, hp, hfill (by simp [hp])⟩
  next => exact ⟨_, _, rfl, rfl, rfl⟩

/-- `RRX b` completes with what the receiver makes of the byte (43_rl_rx R170). -/
theorem exec_rrx_of_receive {b : Byte} {s : State} {u : Rrx} {es : List Emission}
    (h : rrxReceive (s.unwritten .rrx) b s.rrx = .ok (u, es)) : exec (.rrx b) s = .next ((s.setRrx u).emitAll es) := by
  simp only [exec, execRrx, rrxEffect, h, Except.map, Effect.complete_ok]

/-- Settles O43: the step leaves the receiver as the 0x00 leaves it. -/
theorem zeroByteIsAlwaysBoundary : Obligations.ZeroByteIsAlwaysBoundary := by
  intro s hs
  obtain ⟨u, es, hu, hphase, hfill⟩ := rrxReceive_zero (s.unwritten .rrx) hs
  exact ⟨_, exec_rrx_of_receive hu, hphase, hfill⟩

end Sys2Proof.Machine
end

section
/-! # Writes to a unit's buffer (20_memory R50, R51)

From a state that meets the invariants no step stops, since every index a receiver writes is in its buffer; an index
outside it stops the model by name (log entry 6). -/

namespace Sys2Proof.Machine

/-! ## Inside the buffers -/

/-- From a state that meets the invariants every word has an effect, an illegal one included (60_exceptions R260). -/
theorem decodedEffect_ok_of_inv {s : State} (hs : s.Inv) (d : Decoded) : ∃ u es, decodedEffect d s = .ok (u, es) := by
  cases d with
  | op i => exact instrEffect_ok_of_inv hs i
  | illegal info => exact ⟨_, _, rfl⟩

/-- A step at a word completes the word's effect, at the state that has accepted it (30_encoding R70, R76). -/
theorem step_of_input_word {s : State} {w : Word} {rest : List InputEvent} (hi : s.input = .word w :: rest) :
    step s = (decodedEffect (decode w) (s.accept rest)).complete := by
  cases hd : decode w with
  | op i =>
    rw [step_of_decode_op hi hd]
    exact exec_eq_complete i (s.accept rest)
  | illegal info => exact step_of_decode_illegal hi hd

/-- A step at a word that the reset input interrupts cuts the word's effect short (70_reset R294). -/
theorem step_of_input_resetDuring {s : State} {w : Word} {rest : List InputEvent}
    (hi : s.input = .resetDuring w :: rest) :
    step s = (decodedEffect (decode w) (s.accept rest)).cutShort (s.accept rest) := by
  simp only [step, hi, cutWord]

/-- Settles O15: only a word's effect could stop a step, and from the invariants every word has an effect. -/
theorem stepNeverStops : Obligations.StepNeverStops := by
  intro s hs
  have hok (w : Word) (rest : List InputEvent) : ∃ u es, decodedEffect (decode w) (s.accept rest) = .ok (u, es) :=
    decodedEffect_ok_of_inv (s := s.accept rest) hs (decode w)
  rcases hi : s.input with _ | ⟨w | _ | w, rest⟩
  · exact ⟨s, by simp only [step, hi]⟩
  · obtain ⟨u, es, he⟩ := hok w rest
    rw [step_of_input_word hi, he]
    exact ⟨_, rfl⟩
  · exact ⟨{ s.assertReset with input := rest }, by simp only [step, hi, resetBetween]⟩
  · obtain ⟨u, es, he⟩ := hok w rest
    rw [step_of_input_resetDuring hi, he]
    exact ⟨_, rfl⟩

/-! ## Outside the buffers -/

/-- `FRX b` stops where the receiver does. -/
theorem exec_frx_of_receive_error {b : Byte} {s : State} {f : Fault}
    (h : frxReceive s.maxPayload.val (s.unwritten .frx) b s.frx = .error f) : exec (.frx b) s = .fault f := by
  simp only [exec, execFrx, frxEffect, h, Except.map, Effect.complete_error]

/-- `RRX b` stops where the receiver does. -/
theorem exec_rrx_of_receive_error {b : Byte} {s : State} {f : Fault}
    (h : rrxReceive (s.unwritten .rrx) b s.rrx = .error f) : exec (.rrx b) s = .fault f := by
  simp only [exec, execRrx, rrxEffect, h, Except.map, Effect.complete_error]

/-- In phase AP, `FRX` stops with the counter outside the buffer. -/
theorem frxReceive_of_le {m : Nat} (free : Nat → Byte) (b : Byte) {u : Frx} (hp : u.phase = .ap)
    (hfill : m ≤ u.fill.toNat) : frxReceive m free b u = .error (.outsideBuffer .frx) := by
  simp only [frxReceive, hp, frxAccumulate_of_le m free b u hfill]

/-- In phase BODY, `RRX` stops at a payload byte with the counter outside the buffer. -/
theorem rrxReceive_of_le (free : Nat → Byte) {b : Byte} {u : Rrx} (hp : u.phase = .body) (hb : b ≠ 0)
    (hfill : rrxDepth ≤ u.fill.toNat) : rrxReceive free b u = .error (.outsideBuffer .rrx) := by
  simp only [rrxReceive, hp, if_neg hb, rrxBody_of_le free b u hfill]

/-- Settles O27: the invariant of each receiver keeps its counter inside the buffer. -/
theorem outsideBufferWriteStops : Obligations.OutsideBufferWriteStops := by
  refine ⟨fun s b hp hfill => ⟨exec_frx_of_receive_error (frxReceive_of_le _ b hp hfill), ?_⟩,
    fun s b hp hb hfill => ⟨exec_rrx_of_receive_error (rrxReceive_of_le _ hp hb hfill), ?_⟩⟩
  · rintro ⟨-, hfrx, -, -, -⟩
    exact absurd (hfrx.fill_lt hp) (Nat.not_lt.2 hfill)
  · rintro ⟨-, -, -, hrrx, -⟩
    exact absurd (hrrx.fill_lt hp) (Nat.not_lt.2 hfill)

end Sys2Proof.Machine
end

section
/-! # Operation words: every word is an encoding or illegal (30_encoding R73-R76) -/

namespace Sys2Proof

/-! ## Fields of a word -/

/-- A field cut out of a word and put back in its place is the word under the field's mask (30_encoding R72). -/
theorem zeroExtend_extract_shiftLeft {p n : Nat} {mask : Word}
    (hmask : ∀ j : Fin 16, mask.getLsbD j = decide (p ≤ j.val ∧ j.val < p + n)) (w : Word) :
    (w.extractLsb' p n).zeroExtend 16 <<< p = w &&& mask := by
  refine BitVec.eq_of_getLsbD_eq fun j hj => ?_
  rw [BitVec.getLsbD_and, hmask ⟨j, hj⟩]
  by_cases hp : p ≤ j
  · have hin : j - p < n ↔ j < p + n := by omega
    simp [hj, hp, Nat.not_lt.2 hp, hin, Bool.and_comm]
  · simp [hp, Nat.not_le.1 hp]

theorem zeroExtend_operandB (w : Word) : (operandB w).zeroExtend 16 = w &&& 0x00FF := by
  simpa [operandB] using zeroExtend_extract_shiftLeft (p := 0) (n := 8) (mask := 0x00FF) (by decide) w

theorem zeroExtend_operandM (w : Word) : (operandM w).zeroExtend 16 <<< 8 = w &&& 0x0300 :=
  zeroExtend_extract_shiftLeft (by decide) w

theorem zeroExtend_operandT (w : Word) : (operandT w).zeroExtend 16 <<< 8 = w &&& 0x0F00 :=
  zeroExtend_extract_shiftLeft (by decide) w

/-! ## Encoding what a row makes of a word -/

/-- A row of the operation map is the row of its own mnemonic. -/
theorem row_mnemonic_of_mem {r : OpRow} (hr : r ∈ opRows) : r.mnemonic.row = r := by
  have hrows : ∀ r ∈ opRows, r.mnemonic.row = r := by decide
  exact hrows r hr

@[simp] theorem mnemonic_instrOf (m : Mnemonic) (w : Word) : (m.instrOf w).mnemonic = m := by cases m <;> rfl

/-- The operand bits of what a row makes of a word are the bits of the word that the row's mask leaves free. -/
theorem operandBits_instrOf (m : Mnemonic) (w : Word) : (m.instrOf w).operandBits = w &&& ~~~ m.row.mask := by
  cases m with
  | nop | ftxe | rtxe => exact BitVec.and_zero.symm
  | frx | rrx | ftxb | ftxd | rtxd => exact zeroExtend_operandB w
  | rtxb => exact zeroExtend_operandM w
  | clr => exact zeroExtend_operandT w

/-- Encoding what a row makes of a word it selects gives the word back: the pattern fixes the bits under the mask, the
operand the others. -/
theorem encode_instrOf {r : OpRow} {w : Word} (hr : r ∈ opRows) (hsel : w &&& r.mask = r.pattern) :
    encode (r.mnemonic.instrOf w) = w := by
  calc encode (r.mnemonic.instrOf w)
      = (w &&& r.mask) ||| (w &&& ~~~ r.mask) := by
        rw [encode, mnemonic_instrOf, operandBits_instrOf, row_mnemonic_of_mem hr, hsel]
    _ = w := by rw [← BitVec.and_or_distrib_left, BitVec.or_not_self, BitVec.and_allOnes]

/-- A word decodes to an operation whose word it is, or no row selects it. -/
theorem decode_eq_op_or_not_selected (w : Word) :
    (∃ i, decode w = .op i ∧ encode i = w) ∨ ∀ r ∈ opRows, w &&& r.mask ≠ r.pattern := by
  by_cases h : ∃ r ∈ opRows, w &&& r.mask = r.pattern
  · obtain ⟨r, hr, hsel⟩ := h
    exact .inl ⟨_, decode_of_selects hr (beq_iff_eq.2 hsel), encode_instrOf hr hsel⟩
  · exact .inr fun r hr hsel => h ⟨r, hr, hsel⟩

/-! ## The reserved values of `op` -/

/-- Every row fixes all of `op`, to a value below 0xA (30_encoding R73). -/
theorem opRows_fix_op : ∀ r ∈ opRows, r.mask.extractLsb' 12 4 = BitVec.allOnes 4 ∧
    (r.pattern.extractLsb' 12 4).toNat < 0xA := by decide

/-- No row selects a word whose `op` is reserved (30_encoding R75). -/
theorem not_selected_of_reserved_op {w : Word} (hop : 0xA ≤ (w.extractLsb' 12 4).toNat) :
    ∀ r ∈ opRows, w &&& r.mask ≠ r.pattern := by
  intro r hr hsel
  obtain ⟨hmask, hlt⟩ := opRows_fix_op r hr
  have hsame : r.pattern.extractLsb' 12 4 = w.extractLsb' 12 4 := by
    rw [← hsel, BitVec.extractLsb'_and, hmask, BitVec.and_allOnes]
  rw [hsame] at hlt
  omega

/-! ## The obligations -/

/-- Settles O1: the operation's row, and no other, selects its word, and the operand is read back from it. -/
theorem decodeEncodeAgree : Obligations.DecodeEncodeAgree := decode_encode

/-- Settles O2: a row that selects the word gives the operation whose word it is; with no such row the word is illegal,
and a reserved `op` has none. -/
theorem everyWordIsAnEncodingOrIllegal : Obligations.EveryWordIsAnEncodingOrIllegal := by
  intro w
  constructor
  · rcases decode_eq_op_or_not_selected w with hop | hnone
    · exact .inl hop
    · exact .inr ⟨Machine.decode_of_not_selected hnone, hnone⟩
  · exact fun hop => Machine.decode_of_not_selected (not_selected_of_reserved_op hop)

/-- Settles O3: two different rows differ in a bit that both masks look at. -/
theorem operationRowsDisjoint : Obligations.OperationRowsDisjoint := by
  intro w r hr r' hr' h h'
  exact opRows_eq_of_selects hr hr' (beq_iff_eq.2 h) (beq_iff_eq.2 h')

/-- Settles O4: ten of the words are the encodings of what they decode to, and no row selects the other six. -/
theorem writtenOutWordsDecode : Obligations.WrittenOutWordsDecode :=
  ⟨decode_encode .nop, decode_encode (.frx 0x7E), decode_encode (.rrx 0x05), decode_encode (.ftxb 0x01),
    decode_encode (.ftxd 0x41), decode_encode .ftxe, decode_encode (.rtxb 2), decode_encode (.rtxd 0x43),
    decode_encode .rtxe, decode_encode (.clr 0x5), Machine.decode_of_not_selected (by decide),
    Machine.decode_of_not_selected (by decide), Machine.decode_of_not_selected (by decide),
    Machine.decode_of_not_selected (by decide), Machine.decode_of_not_selected (by decide),
    Machine.decode_of_not_selected (by decide)⟩

end Sys2Proof
end

section
/-! # The assembly text of an operation (30_encoding R90) -/

namespace Sys2Proof.Machine

/-! ## Assembling a line -/

/-- The operation of a mnemonic whose operand is a byte (30_encoding R72, R73). -/
def byteOp : Mnemonic → Option (Byte → Instr)
  | .frx => some .frx
  | .rrx => some .rrx
  | .ftxb => some .ftxb
  | .ftxd => some .ftxd
  | .rtxd => some .rtxd
  | _ => none

/-- A line with a byte operand assembles exactly when the number fits a byte. -/
theorem assemble_byte {mn : Mnemonic} {op : Byte → Instr} (hop : byteOp mn = some op) (n : Nat) :
    assemble ⟨mn, .hex n⟩ = if n < 256 then some (op (BitVec.ofNat 8 n)) else none := by
  cases mn with
  | frx | rrx | ftxb | ftxd | rtxd =>
    cases hop
    simp only [assemble, AsmLine.wf, byteOperand, decide_eq_true_eq]
  | nop | ftxe | rtxb | rtxe | clr => cases hop

/-- A line with a decimal mode assembles exactly when the number fits a mode. -/
theorem assemble_rtxb_dec (n : Nat) :
    assemble ⟨.rtxb, .dec n⟩ = if n < 4 then some (.rtxb (BitVec.ofNat 2 n)) else none := by
  simp only [assemble, AsmLine.wf, modeOperand, decide_eq_true_eq]

/-- A line with a numeric mask assembles exactly when the number fits a mask. -/
theorem assemble_clr_hex (n : Nat) :
    assemble ⟨.clr, .hex n⟩ = if n < 16 then some (.clr (BitVec.ofNat 4 n)) else none := by
  simp only [assemble, AsmLine.wf, maskOperand, decide_eq_true_eq]

/-- A hexadecimal number that assembles fits a byte, whatever the mnemonic. -/
theorem wf_hex_lt {mn : Mnemonic} {n : Nat} (h : AsmLine.wf ⟨mn, .hex n⟩ = true) : n < 256 := by
  cases mn with
  | frx | rrx | ftxb | ftxd | rtxd => exact of_decide_eq_true h
  | clr => exact Nat.lt_trans (of_decide_eq_true h) (by decide)
  | nop | ftxe | rtxb | rtxe => cases h

/-- The byte of an assembled line is the number as written. -/
theorem toNat_of_assemble_byte {mn : Mnemonic} {op : Byte → Instr} (hop : byteOp mn = some op)
    (hinj : Function.Injective op) {n : Nat} {b : Byte} (h : assemble ⟨mn, .hex n⟩ = some (op b)) : b.toNat = n := by
  rw [assemble_byte hop, Option.ite_none_right_eq_some] at h
  obtain ⟨hn, hb⟩ := h
  rw [← hinj (Option.some.inj hb), BitVec.toNat_ofNat, Nat.mod_eq_of_lt hn]

theorem toNat_of_assemble_mode {n : Nat} {m : Mode} (h : assemble ⟨.rtxb, .dec n⟩ = some (.rtxb m)) :
    m.toNat = n := by
  rw [assemble_rtxb_dec, Option.ite_none_right_eq_some] at h
  obtain ⟨hn, hm⟩ := h
  rw [← Instr.rtxb.inj (Option.some.inj hm), BitVec.toNat_ofNat, Nat.mod_eq_of_lt hn]

theorem toNat_of_assemble_mask {n : Nat} {t : UnitMask} (h : assemble ⟨.clr, .hex n⟩ = some (.clr t)) :
    t.toNat = n := by
  rw [assemble_clr_hex, Option.ite_none_right_eq_some] at h
  obtain ⟨hn, ht⟩ := h
  rw [← Instr.clr.inj (Option.some.inj ht), BitVec.toNat_ofNat, Nat.mod_eq_of_lt hn]

/-- Settles O6: a line assembles only if its number fits the field, and then the field holds the number. -/
theorem assemblyNeverTruncates : Obligations.AssemblyNeverTruncates := by
  intro n
  refine ⟨?_, fun _ => toNat_of_assemble_mode, fun _ => toNat_of_assemble_mask, ?_⟩
  · rintro b (h | h | h | h | h)
    · exact toNat_of_assemble_byte rfl (fun _ _ => Instr.frx.inj) h
    · exact toNat_of_assemble_byte rfl (fun _ _ => Instr.rrx.inj) h
    · exact toNat_of_assemble_byte rfl (fun _ _ => Instr.ftxb.inj) h
    · exact toNat_of_assemble_byte rfl (fun _ _ => Instr.ftxd.inj) h
    · exact toNat_of_assemble_byte rfl (fun _ _ => Instr.rtxd.inj) h
  · exact fun hn mn => if_neg fun hwf => absurd (wf_hex_lt hwf) (Nat.not_lt.2 hn)

/-! ## Reading a line -/

/-- A text without the separator is one part. -/
theorem splitAt_of_not_mem {sep : Char} {a : List Char} (ha : sep ∉ a) : splitAt sep a = [a] := by
  induction a with
  | nil => rfl
  | cons c a ih =>
    obtain ⟨hc, ha⟩ := not_or.1 (List.mem_cons.not.1 ha)
    simp only [splitAt, if_neg (Ne.symm hc), ih ha]

/-- The text up to the first separator is the first part. -/
theorem splitAt_append {sep : Char} {a : List Char} (ha : sep ∉ a) (o : List Char) :
    splitAt sep (a ++ sep :: o) = a :: splitAt sep o := by
  induction a with
  | nil => simp only [List.nil_append, splitAt, if_true]
  | cons c a ih =>
    obtain ⟨hc, ha⟩ := not_or.1 (List.mem_cons.not.1 ha)
    simp only [List.cons_append, splitAt, if_neg (Ne.symm hc), ih ha]

theorem readMnemonic_mnemonicText (mn : Mnemonic) : readMnemonic (mnemonicText mn) = some mn := by
  cases mn <;> decide

theorem space_not_mem_mnemonicText (mn : Mnemonic) : ' ' ∉ mnemonicText mn := by cases mn <;> decide

/-- A mnemonic alone is a line with no operand. -/
theorem readLine_mnemonicText (mn : Mnemonic) : readLine (mnemonicText mn) = some ⟨mn, .absent⟩ := by
  simp only [readLine, splitAt_of_not_mem (space_not_mem_mnemonicText mn), readMnemonic_mnemonicText, Option.map_some]

/-- A mnemonic, a space and an operand are a line. -/
theorem readLine_operand (mn : Mnemonic) {o : List Char} {op : AsmOperand} (hspace : ' ' ∉ o)
    (ho : readOperand o = some op) : readLine (mnemonicText mn ++ ' ' :: o) = some ⟨mn, op⟩ := by
  simp only [readLine, splitAt_append (space_not_mem_mnemonicText mn), splitAt_of_not_mem hspace,
    readMnemonic_mnemonicText, ho]

/-! ## Numbers as written -/

theorem hexDigit_hexChar {n : Nat} (hn : n < 16) : hexDigit (hexChar n) = some n := by
  have hdigits : ∀ d : Fin 16, hexDigit (hexChar d) = some d.val := by decide
  exact hdigits ⟨n, hn⟩

theorem hexChar_ne_space {n : Nat} (hn : n < 16) : ' ' ≠ hexChar n := by
  have hdigits : ∀ d : Fin 16, ' ' ≠ hexChar d := by decide
  exact hdigits ⟨n, hn⟩

/-- A byte reads back: its two digits are its quotient and its remainder by 16. -/
theorem readOperand_byteText (b : Byte) : readOperand (byteText b) = some (.hex b.toNat) := by
  have hhigh : b.toNat / 16 < 16 := Nat.div_lt_of_lt_mul b.isLt
  have hlow : b.toNat % 16 < 16 := Nat.mod_lt _ (by decide)
  have hvalue : (0 * 16 + b.toNat / 16) * 16 + b.toNat % 16 = b.toNat := by omega
  simp only [byteText, readOperand, readDigits, hexDigit_hexChar hhigh, hexDigit_hexChar hlow, hvalue, Option.map_some]

theorem space_not_mem_byteText (b : Byte) : ' ' ∉ byteText b := by
  have hhigh : b.toNat / 16 < 16 := Nat.div_lt_of_lt_mul b.isLt
  have hlow : b.toNat % 16 < 16 := Nat.mod_lt _ (by decide)
  simp [byteText, hexChar_ne_space hhigh, hexChar_ne_space hlow]

/-- A mask reads back from its one hexadecimal digit. -/
theorem readOperand_maskText (t : UnitMask) : readOperand ['0', 'x', hexChar t.toNat] = some (.hex t.toNat) := by
  simp only [readOperand, readDigits, hexDigit_hexChar t.isLt, Nat.zero_mul, Nat.zero_add, Option.map_some]

theorem space_not_mem_maskText (t : UnitMask) : ' ' ∉ ['0', 'x', hexChar t.toNat] := by
  simp [hexChar_ne_space t.isLt]

/-- A mode reads back from its one decimal digit. -/
theorem readOperand_modeText (m : Mode) : readOperand [hexChar m.toNat] = some (.dec m.toNat) := by
  revert m
  decide

theorem space_not_mem_modeText (m : Mode) : ' ' ∉ [hexChar m.toNat] := by
  simp [hexChar_ne_space (Nat.lt_trans m.isLt (by decide))]

/-! ## Reading an operation back -/

theorem assembleText_of_readLine {t : List Char} {l : AsmLine} (h : readLine t = some l) :
    assembleText t = assemble l := by
  simp only [assembleText, h]

theorem assembleText_byte {mn : Mnemonic} {op : Byte → Instr} (hop : byteOp mn = some op) (b : Byte) :
    assembleText (mnemonicText mn ++ ' ' :: byteText b) = some (op b) := by
  rw [assembleText_of_readLine (readLine_operand mn (space_not_mem_byteText b) (readOperand_byteText b)),
    assemble_byte hop, if_pos b.isLt, BitVec.ofNat_toNat, BitVec.setWidth_eq]

theorem assembleText_mode (m : Mode) :
    assembleText (mnemonicText .rtxb ++ ' ' :: [hexChar m.toNat]) = some (.rtxb m) := by
  rw [assembleText_of_readLine (readLine_operand .rtxb (space_not_mem_modeText m) (readOperand_modeText m)),
    assemble_rtxb_dec, if_pos m.isLt, BitVec.ofNat_toNat, BitVec.setWidth_eq]

theorem assembleText_mask (t : UnitMask) :
    assembleText (mnemonicText .clr ++ ' ' :: ['0', 'x', hexChar t.toNat]) = some (.clr t) := by
  rw [assembleText_of_readLine (readLine_operand .clr (space_not_mem_maskText t) (readOperand_maskText t)),
    assemble_clr_hex, if_pos t.isLt, BitVec.ofNat_toNat, BitVec.setWidth_eq]

/-- Settles O5: the mnemonic, then the operand, is read back from the text. -/
theorem assemblyTextReadsBack : Obligations.AssemblyTextReadsBack := by
  intro i
  cases i with
  | nop => exact assembleText_of_readLine (readLine_mnemonicText .nop)
  | frx b => exact assembleText_byte rfl b
  | rrx b => exact assembleText_byte rfl b
  | ftxb b => exact assembleText_byte rfl b
  | ftxd b => exact assembleText_byte rfl b
  | ftxe => exact assembleText_of_readLine (readLine_mnemonicText .ftxe)
  | rtxb m => exact assembleText_mode m
  | rtxd b => exact assembleText_byte rfl b
  | rtxe => exact assembleText_of_readLine (readLine_mnemonicText .rtxe)
  | clr t => exact assembleText_mask t

end Sys2Proof.Machine
end

section
/-! # What a step puts on the ports (30_encoding R85, R86) -/

namespace Sys2Proof.Machine

/-! ## Traces only grow -/

/-- What a step adds to the traces: nothing, or the first values of a word's output, all of them unless the reset input
cuts the word short (70_reset R291, R294). -/
theorem step_emits {s t : State} (h : step s = .next t) :
    ∃ es, t.ports = s.ports.emitAll es ∧
      (es = [] ∨ ∃ w rest u fs, decodedEffect (decode w) (s.accept rest) = .ok (u, fs) ∧ es <+: fs) := by
  rcases step_cases s t h with ⟨-, rfl⟩ | ⟨w, rest, u, es, -, he, rfl⟩ | ⟨rest, -, rfl⟩ | ⟨w, rest, u, es, -, he, rfl⟩
  · exact ⟨[], rfl, .inl rfl⟩
  · obtain ⟨hports, -, -, -, -⟩ := decodedEffect_frame _ _ _ _ he
    exact ⟨es, congrArg (·.emitAll es) hports, .inr ⟨w, rest, u, es, he, List.prefix_rfl⟩⟩
  · exact ⟨[], rfl, .inl rfl⟩
  · exact ⟨_, rfl, .inr ⟨w, rest, u, es, he, List.take_prefix _ _⟩⟩

/-- Settles O17: what a step emits is appended to each trace. -/
theorem portTracesOnlyGrow : Obligations.PortTracesOnlyGrow := by
  intro s t h
  obtain ⟨es, hports, -⟩ := step_emits h
  simp only [hports, Ports.emitAll_fw, Ports.emitAll_rw, Ports.emitAll_dlv, Ports.emitAll_diag, Ports.emitAll_res]
  exact ⟨List.prefix_append _ _, List.prefix_append _ _, List.prefix_append _ _, List.prefix_append _ _,
    List.prefix_append _ _⟩

/-! ## The length of a decoded payload -/

/-- A mapped result comes from a result. -/
theorem exists_of_map_eq_ok {ε α β : Type} {f : α → β} {x : Except ε α} {b : β} (h : x.map f = .ok b) :
    ∃ a, x = .ok a ∧ f a = b := by
  cases x with
  | error e => cases h
  | ok a => exact ⟨a, rfl, Except.ok.inj h⟩

/-- Unstuffing gives no more bytes than it is given (41_framer_rx R108). -/
theorem unstuffFrom_length_le {i : Nat} {s p : List Byte} (h : unstuffFrom i s = .ok p) : p.length ≤ s.length := by
  fun_induction unstuffFrom i s generalizing p with
  | case1 => cases h; exact Nat.le_refl _
  | case4 => cases h; exact Nat.le_refl _
  | case2 | case3 | case5 | case6 => cases h
  | case7 i d rest _ _ ih =>
    obtain ⟨q, hq, rfl⟩ := exists_of_map_eq_ok h
    have hle : q.length ≤ rest.length := ih hq
    simp only [List.length_cons]
    omega
  | case8 i c d rest _ _ ih =>
    obtain ⟨q, hq, rfl⟩ := exists_of_map_eq_ok h
    exact Nat.succ_le_succ (ih hq)

/-- Run-length decoding gives one byte less than the body has (43_rl_rx R179): each run gives as many bytes as it has,
a 0x00 standing for its first byte, but the last run gives no 0x00. -/
theorem rlDecodeFrom_length {fuel p : Nat} {rest d : List Byte} (h : rlDecodeFrom fuel p rest = .ok d) :
    d.length = rest.length - 1 := by
  fun_induction rlDecodeFrom fuel p rest generalizing d with
  | case1 => cases h; rfl
  | case2 | case3 => cases h
  | case4 fuel p runPrefix tail k hk next zero =>
    rename_i ih
    obtain ⟨q, hq, rfl⟩ := exists_of_map_eq_ok h
    have hq : q.length = (tail.length - (k - 1)) - 1 := by simpa only [next, List.length_drop] using ih hq
    have hzero : zero.length = if tail.length ≤ k - 1 then 0 else 1 := by
      simp only [zero, next, List.drop_eq_nil_iff, apply_ite List.length, List.length_nil, List.length_singleton]
    simp only [List.length_append, List.length_take, List.length_cons, hq, hzero]
    split <;> omega

/-! ## Bounds on deliveries -/

/-- A delivery within the bounds of a block with `MAX_PAYLOAD = m` (30_encoding R86). -/
def Delivery.Bounded (m : Nat) : Delivery → Prop
  | .frFrame _ p => p.length ≤ m
  | .rlPacket _ p => p.length ≤ 62

/-- Every delivery among the values is within the bounds. -/
def DeliveriesBounded (m : Nat) (es : List Emission) : Prop := ∀ d, .dlv d ∈ es → d.Bounded m

theorem deliveriesBounded_nil (m : Nat) : DeliveriesBounded m [] := fun _ h => absurd h List.not_mem_nil

theorem deliveriesBounded_diag (m : Nat) (tag : DiagTag) (info : Byte) : DeliveriesBounded m [diag tag info] := by
  intro d hd
  cases List.mem_singleton.1 hd

theorem deliveriesBounded_dlv {m : Nat} {d : Delivery} (h : d.Bounded m) : DeliveriesBounded m [.dlv d] := by
  intro d' hd
  cases List.mem_singleton.1 hd
  exact h

/-- A transmitter delivers nothing. -/
theorem deliveriesBounded_of_source {m : Nat} {unit : UnitId} {es : List Emission}
    (hunit : unit = .ftx ∨ unit = .rtx) (hes : ∀ e ∈ es, e.source = some unit) : DeliveriesBounded m es := by
  intro d hd
  have hsrc : d.deliveredBy = unit := Option.some.inj (hes _ hd)
  rcases hunit with rfl | rfl <;> cases d <;> cases hsrc

/-- A completed frame of a length within the buffer delivers a payload within it (41_framer_rx R108). -/
theorem frxComplete_deliveriesBounded {m : Nat} (free : Nat → Byte) {u : Frx} (hlen : u.len.toNat ≤ m) :
    DeliveriesBounded m (frxComplete free u).2 := by
  obtain ⟨-, ⟨p, hp, he⟩ | ⟨i, -, he⟩ | ⟨i, -, he⟩⟩ := frxComplete_cases free u <;> rw [he]
  · refine deliveriesBounded_dlv ?_
    calc p.length
        ≤ (u.buf.readSeq free 0 u.len.toNat).length := unstuffFrom_length_le hp
      _ ≤ m := by rwa [Memory.readSeq_length]
  · exact deliveriesBounded_diag _ _ _
  · exact deliveriesBounded_diag _ _ _

theorem frxReceive_deliveriesBounded {m : Nat} {free : Nat → Byte} {b : Byte} {u u' : Frx} {es : List Emission}
    (hu : u.Inv m) (h : frxReceive m free b u = .ok (u', es)) : DeliveriesBounded m es := by
  obtain ⟨-, -, hap, -, -⟩ := hu
  rcases frxReceive_cases m free b u u' es h with ⟨-, -, -, rfl⟩ | ⟨-, -, -, rfl⟩ | ⟨-, -, rfl⟩ | ⟨-, -, -, rfl⟩ |
    ⟨-, -, hc⟩ | ⟨-, -, -, -, rfl⟩ | ⟨hp, -, -, hc⟩ | ⟨-, -, -, -, rfl⟩
  · exact deliveriesBounded_nil _
  · exact deliveriesBounded_diag _ _ _
  · exact deliveriesBounded_nil _
  · exact deliveriesBounded_diag _ _ _
  · obtain rfl : es = _ := congrArg Prod.snd hc
    exact frxComplete_deliveriesBounded free (Nat.zero_le m)
  · exact deliveriesBounded_nil _
  · obtain rfl : es = _ := congrArg Prod.snd hc
    obtain ⟨-, hlen, -⟩ := hap hp
    exact frxComplete_deliveriesBounded free hlen
  · exact deliveriesBounded_nil _

/-- A completed packet delivers at most 62 bytes: its length has six bits, and decoding drops one byte (43_rl_rx R179). -/
theorem rrxComplete_deliveriesBounded (m : Nat) (free : Nat → Byte) (u : Rrx) :
    DeliveriesBounded m (rrxComplete free u).2 := by
  obtain ⟨-, ⟨p, hp, he⟩ | ⟨i, -, he⟩⟩ := rrxComplete_cases free u <;> rw [he]
  · have hp : p.length = u.len.toNat - 1 := by simpa using rlDecodeFrom_length hp
    have hlen : u.len.toNat < 64 := u.len.isLt
    exact deliveriesBounded_dlv (by simp only [Delivery.Bounded]; omega)
  · exact deliveriesBounded_diag _ _ _

theorem rrxReceive_deliveriesBounded (m : Nat) {free : Nat → Byte} {b : Byte} {u u' : Rrx} {es : List Emission}
    (h : rrxReceive free b u = .ok (u', es)) : DeliveriesBounded m es := by
  rcases rrxReceive_cases free b u u' es h with ⟨-, -, -, rfl⟩ | ⟨-, -, -, rfl⟩ | ⟨-, -, -, rfl⟩ |
    ⟨-, -, -, -, rfl⟩ | ⟨-, -, -, -, rfl⟩ | ⟨-, -, -, rfl⟩ | ⟨-, -, -, -, hc⟩ | ⟨-, -, -, -, -, rfl⟩
  · exact deliveriesBounded_nil _
  · exact deliveriesBounded_diag _ _ _
  · exact deliveriesBounded_nil _
  · exact deliveriesBounded_diag _ _ _
  · exact deliveriesBounded_nil _
  · exact deliveriesBounded_diag _ _ _
  · obtain rfl : es = _ := congrArg Prod.snd hc
    exact rrxComplete_deliveriesBounded m free _
  · exact deliveriesBounded_nil _

/-- Only the receivers deliver, and what they deliver is within the bounds. -/
theorem instrEffect_deliveriesBounded {i : Instr} {s u : State} {es : List Emission} (hs : s.Inv)
    (h : instrEffect i s = .ok (u, es)) : DeliveriesBounded s.maxPayload.val es := by
  obtain ⟨-, hfrx, -, -, -⟩ := hs
  rcases instrEffect_ok i s u es h with ⟨-, -, rfl⟩ | ⟨b, r, -, hr, -⟩ | ⟨b, r, -, hr, -⟩ | ⟨b, -, -, rfl⟩ |
    ⟨b, -, -, rfl⟩ | ⟨-, -, rfl⟩ | ⟨m, -, -, rfl⟩ | ⟨b, -, -, rfl⟩ | ⟨-, -, rfl⟩ | ⟨t, -, -, rfl⟩
  · exact deliveriesBounded_nil _
  · exact frxReceive_deliveriesBounded hfrx hr
  · exact rrxReceive_deliveriesBounded _ hr
  · exact deliveriesBounded_of_source (.inl rfl) (ftxBegin_source _ _)
  · exact deliveriesBounded_of_source (.inl rfl) (ftxData_source _ _ _)
  · exact deliveriesBounded_of_source (.inl rfl) (ftxEnd_source _ _)
  · exact deliveriesBounded_of_source (.inr rfl) (rtxBegin_source _ _)
  · exact deliveriesBounded_of_source (.inr rfl) (rtxData_source _ _)
  · exact deliveriesBounded_of_source (.inr rfl) (rtxEnd_source _ _)
  · exact deliveriesBounded_nil _

theorem decodedEffect_deliveriesBounded {d : Decoded} {s u : State} {es : List Emission} (hs : s.Inv)
    (h : decodedEffect d s = .ok (u, es)) : DeliveriesBounded s.maxPayload.val es := by
  cases d with
  | op i => exact instrEffect_deliveriesBounded hs h
  | illegal info =>
    obtain ⟨-, rfl⟩ := Prod.mk.inj (Except.ok.inj h)
    exact deliveriesBounded_diag _ _ _

/-- The deliveries that values append to `DLV` are those among the values. -/
theorem mem_filterMap_onDlv {es : List Emission} {d : Delivery} : d ∈ es.filterMap Emission.onDlv ↔ .dlv d ∈ es := by
  rw [List.mem_filterMap]
  constructor
  · rintro ⟨e, he, hd⟩
    cases e <;> cases hd
    exact he
  · exact fun h => ⟨_, h, rfl⟩

/-- Settles O20: a step adds some first values of a word's output, whose deliveries are within the bounds. -/
theorem deliveriesAreBounded : Obligations.DeliveriesAreBounded := by
  intro s t hs h
  obtain ⟨es, hports, hes⟩ := step_emits h
  have hbounded : DeliveriesBounded s.maxPayload.val es := by
    rcases hes with rfl | ⟨w, rest, u, fs, he, hpre⟩
    · exact deliveriesBounded_nil _
    · exact fun d hd => decodedEffect_deliveriesBounded (s := s.accept rest) hs he d (hpre.subset hd)
  refine ⟨es.filterMap Emission.onDlv, by rw [hports, Ports.emitAll_dlv], ?_, ?_⟩
  · exact fun c p hp => hbounded (.frFrame c p) (mem_filterMap_onDlv.1 hp)
  · exact fun m p hp => hbounded (.rlPacket m p) (mem_filterMap_onDlv.1 hp)

end Sys2Proof.Machine
end

section
/-! # The stuffed form of a payload (30_encoding R83) -/

namespace Sys2Proof.Machine

/-- Each payload byte is stuffed as an escape pair, or, being neither flag nor escape, as itself (42_framer_tx R144). -/
theorem stuff_cons_cases (x : Byte) (d : List Byte) :
    (∃ e, (e = 0x5E ∨ e = 0x5D) ∧ stuff (x :: d) = 0x7D :: e :: stuff d) ∨
    (x ≠ 0x7E ∧ x ≠ 0x7D ∧ stuff (x :: d) = x :: stuff d) := by
  by_cases hflag : x = flagByte
  · exact .inl ⟨0x5E, .inl rfl, by simp only [stuff, if_pos hflag]⟩
  · by_cases hesc : x = escapeByte
    · exact .inl ⟨0x5D, .inr rfl, by simp only [stuff, if_neg hflag, if_pos hesc]⟩
    · exact .inr ⟨hflag, hesc, by simp only [stuff, if_neg hflag, if_neg hesc]⟩

theorem flag_not_mem_stuff (d : List Byte) : (0x7E : Byte) ∉ stuff d := by
  induction d with
  | nil => exact List.not_mem_nil
  | cons x d ih =>
    rcases stuff_cons_cases x d with ⟨e, rfl | rfl, h⟩ | ⟨hflag, -, h⟩ <;> rw [h]
    · exact List.not_mem_cons_of_ne_of_not_mem (by decide) (List.not_mem_cons_of_ne_of_not_mem (by decide) ih)
    · exact List.not_mem_cons_of_ne_of_not_mem (by decide) (List.not_mem_cons_of_ne_of_not_mem (by decide) ih)
    · exact List.not_mem_cons_of_ne_of_not_mem (Ne.symm hflag) ih

/-- An escape in a stuffed payload begins an escape pair. -/
theorem stuff_escape_pair (d : List Byte) (i : Nat) (hi : (stuff d)[i]? = some 0x7D) :
    (stuff d)[i + 1]? = some 0x5E ∨ (stuff d)[i + 1]? = some 0x5D := by
  induction d generalizing i with
  | nil => cases hi
  | cons x d ih =>
    rcases stuff_cons_cases x d with ⟨e, he, h⟩ | ⟨-, hesc, h⟩ <;> rw [h] at hi ⊢
    · match i with
      | 0 => rcases he with rfl | rfl <;> simp
      | 1 => rcases he with rfl | rfl <;> simp at hi
      | i + 2 => exact ih i hi
    · match i with
      | 0 => exact absurd (Option.some.inj hi) hesc
      | i + 1 => exact ih i hi

/-- Settles O35: by induction on the payload, byte by byte. -/
theorem stuffedPayloadShape : Obligations.StuffedPayloadShape :=
  fun d => ⟨flag_not_mem_stuff d, stuff_escape_pair d⟩

end Sys2Proof.Machine
end

section
/-! # `RST` and the reset input clear every unit (45_control R243) -/

namespace Sys2Proof.Machine

/-- The mask 0xF clears every unit (45_control R242). -/
theorem State.clearUnits_all_unitsInitial (s : State) : (s.clearUnits 0xF).UnitsInitial :=
  ⟨⟨rfl, rfl, rfl, rfl⟩, ⟨rfl, rfl, rfl, rfl⟩, ⟨rfl, rfl, rfl, rfl⟩, ⟨rfl, rfl, rfl, rfl⟩⟩

theorem State.assertReset_unitsInitial (s : State) : s.assertReset.UnitsInitial :=
  ⟨⟨rfl, rfl, rfl, rfl⟩, ⟨rfl, rfl, rfl, rfl⟩, ⟨rfl, rfl, rfl, rfl⟩, ⟨rfl, rfl, rfl, rfl⟩⟩

/-- Settles O55: `CLR 0xF` and the reset input each clear all four units, and neither emits. -/
theorem rstClearsAsResetDoes : Obligations.RstClearsAsResetDoes := by
  intro s
  refine ⟨rfl, decode_encode (.clr 0xF), s.clearUnits 0xF, { s.assertReset with input := [] }, rfl, rfl, ?_, ?_, rfl,
    rfl⟩
  · exact s.clearUnits_all_unitsInitial
  · exact s.assertReset_unitsInitial

end Sys2Proof.Machine
end

section
/-! # Unstuffing (41_framer_rx R106-R109, R115) -/

namespace Sys2Proof.Machine

/-! ## One byte, or one escape pair -/

theorem unstuffFrom_flag (i : Nat) (s : List Byte) : unstuffFrom i (0x7E :: s) = .error (.illegalFlag i) := by
  cases s <;> rfl

/-- A byte that is neither flag nor escape stands for itself (41_framer_rx R106). -/
theorem unstuffFrom_plain (i : Nat) {c : Byte} (hflag : c ≠ 0x7E) (hesc : c ≠ 0x7D) (s : List Byte) :
    unstuffFrom i (c :: s) = (unstuffFrom (i + 1) s).map (c :: ·) := by
  have hf : c ≠ flagByte := hflag
  have he : c ≠ escapeByte := hesc
  cases s with
  | nil => simp only [unstuffFrom, if_neg hf, if_neg he, Except.map]
  | cons d rest => simp only [unstuffFrom, if_neg hf, if_neg he]

/-- An escape at the end has nothing to escape (41_framer_rx R106). -/
theorem unstuffFrom_escape_end (i : Nat) : unstuffFrom i [0x7D] = .error (.badEscape i) := rfl

theorem unstuffFrom_escape_flag (i : Nat) (s : List Byte) :
    unstuffFrom i (0x7D :: 0x7E :: s) = .error (.illegalFlag (i + 1)) := rfl

/-- An escape makes any byte but a flag into its transform (41_framer_rx R106, R107). -/
theorem unstuffFrom_escape_pair (i : Nat) {d : Byte} (hflag : d ≠ 0x7E) (s : List Byte) :
    unstuffFrom i (0x7D :: d :: s) = (unstuffFrom (i + 2) s).map (escapeXor d :: ·) := by
  have hd : d ≠ flagByte := hflag
  simp only [unstuffFrom, if_neg hd]
  rfl

/-- An induction over a stuffed payload in the steps of `unstuff`: a flag, a byte that stands for itself, an escape at
the end, an escaped flag, an escape pair. -/
theorem unstuff_induction {motive : List Byte → Prop} (nil : motive []) (flag : ∀ s, motive (0x7E :: s))
    (plain : ∀ c s, c ≠ 0x7E → c ≠ 0x7D → motive s → motive (c :: s)) (escapeEnd : motive [0x7D])
    (escapeFlag : ∀ s, motive (0x7D :: 0x7E :: s))
    (escapePair : ∀ d s, d ≠ 0x7E → motive s → motive (0x7D :: d :: s)) : ∀ s, motive s
  | [] => nil
  | c :: s => by
    by_cases hflag : c = 0x7E
    · exact hflag ▸ flag s
    by_cases hesc : c = 0x7D
    · subst hesc
      match s with
      | [] => exact escapeEnd
      | d :: s =>
        by_cases hd : d = 0x7E
        · exact hd ▸ escapeFlag s
        · exact escapePair d s hd
            (unstuff_induction nil flag plain escapeEnd escapeFlag escapePair s)
    · exact plain c s hflag hesc (unstuff_induction nil flag plain escapeEnd escapeFlag escapePair s)

/-! ## The obligations -/

/-- A flag is reported at its first index, counted from where the scan stands (41_framer_rx R115). -/
theorem unstuffFrom_of_flag_mem (i : Nat) {s : List Byte} (h : (0x7E : Byte) ∈ s) :
    unstuffFrom i s = .error (.illegalFlag (i + s.idxOf 0x7E)) := by
  induction s using unstuff_induction generalizing i with
  | nil => cases h
  | flag s => rw [unstuffFrom_flag, List.idxOf_cons_self, Nat.add_zero]
  | plain c s hflag hesc ih =>
    have hs : (0x7E : Byte) ∈ s := List.mem_of_ne_of_mem (Ne.symm hflag) h
    rw [unstuffFrom_plain i hflag hesc, ih (i + 1) hs, List.idxOf_cons_ne s hflag, Nat.add_right_comm]
    rfl
  | escapeEnd => cases List.mem_singleton.1 h
  | escapeFlag s => rw [unstuffFrom_escape_flag, List.idxOf_cons_ne _ (by decide), List.idxOf_cons_self]
  | escapePair d s hflag ih =>
    have hs : (0x7E : Byte) ∈ s :=
      List.mem_of_ne_of_mem (Ne.symm hflag) (List.mem_of_ne_of_mem (by decide) h)
    rw [unstuffFrom_escape_pair i hflag, ih (i + 2) hs, List.idxOf_cons_ne _ (by decide), List.idxOf_cons_ne s hflag,
      show i + 2 + s.idxOf 0x7E = i + (s.idxOf 0x7E).succ.succ by omega]
    rfl

/-- Settles O28: the scan from index 0. -/
theorem unstuffReportsFirstFlag : Obligations.UnstuffReportsFirstFlag := by
  intro s h
  rw [unstuff, unstuffFrom_of_flag_mem 0 h, Nat.zero_add]

/-- Without a flag the scan reaches the end: with one byte for each byte or escape pair, or at an escape that is the
last byte (41_framer_rx R106, R108, R109). -/
theorem unstuffFrom_of_flag_not_mem (i : Nat) {s : List Byte} (h : (0x7E : Byte) ∉ s) :
    (∃ p, unstuffFrom i s = .ok p ∧ s.length ≤ 2 * p.length) ∨
    (s.getLast? = some 0x7D ∧ unstuffFrom i s = .error (.badEscape (i + (s.length - 1)))) := by
  induction s using unstuff_induction generalizing i with
  | nil => exact .inl ⟨[], rfl, Nat.le_refl _⟩
  | flag s => exact absurd List.mem_cons_self h
  | plain c s hflag hesc ih =>
    rw [unstuffFrom_plain i hflag hesc]
    obtain ⟨p, hp, hlen⟩ | ⟨hlast, he⟩ := ih (i + 1) (List.not_mem_of_not_mem_cons h)
    · exact .inl ⟨c :: p, by rw [hp]; rfl, by simp only [List.length_cons]; omega⟩
    · have hpos : 0 < s.length := List.length_pos_of_mem (List.mem_of_getLast? hlast)
      refine .inr ⟨by simp [List.getLast?_cons, hlast], ?_⟩
      rw [he, show i + 1 + (s.length - 1) = i + ((c :: s).length - 1) by simp only [List.length_cons]; omega]
      rfl
  | escapeEnd => exact .inr ⟨rfl, unstuffFrom_escape_end i⟩
  | escapeFlag s => exact absurd (List.mem_cons_of_mem _ List.mem_cons_self) h
  | escapePair d s hflag ih =>
    rw [unstuffFrom_escape_pair i hflag]
    obtain ⟨p, hp, hlen⟩ | ⟨hlast, he⟩ :=
      ih (i + 2) (List.not_mem_of_not_mem_cons (List.not_mem_of_not_mem_cons h))
    · exact .inl ⟨escapeXor d :: p, by rw [hp]; rfl, by simp only [List.length_cons]; omega⟩
    · have hpos : 0 < s.length := List.length_pos_of_mem (List.mem_of_getLast? hlast)
      refine .inr ⟨by simp [List.getLast?_cons, hlast], ?_⟩
      rw [he, show i + 2 + (s.length - 1) = i + ((0x7D :: d :: s).length - 1) by
        simp only [List.length_cons]; omega]
      rfl

/-- Settles O29: the scan from index 0; unstuffing gives no more bytes than it is given. -/
theorem unstuffWithoutFlag : Obligations.UnstuffWithoutFlag := by
  intro s h
  obtain ⟨p, hp, hlen⟩ | ⟨hlast, he⟩ := unstuffFrom_of_flag_not_mem 0 h
  · exact .inl ⟨p, hp, by omega, unstuffFrom_length_le hp⟩
  · exact .inr ⟨hlast, by rw [unstuff, he, Nat.zero_add]⟩

/-- Each payload byte comes back from the byte or the escape pair it was stuffed as (42_framer_tx R149). -/
theorem unstuffFrom_stuff (i : Nat) (d : List Byte) : unstuffFrom i (stuff d) = .ok d := by
  induction d generalizing i with
  | nil => rfl
  | cons x d ih =>
    by_cases hflag : x = flagByte
    · subst hflag
      calc unstuffFrom i (stuff (flagByte :: d))
          = (unstuffFrom (i + 2) (stuff d)).map (escapeXor 0x5E :: ·) := unstuffFrom_escape_pair i (by decide) _
        _ = .ok (flagByte :: d) := by rw [ih]; rfl
    by_cases hesc : x = escapeByte
    · subst hesc
      calc unstuffFrom i (stuff (escapeByte :: d))
          = (unstuffFrom (i + 2) (stuff d)).map (escapeXor 0x5D :: ·) := unstuffFrom_escape_pair i (by decide) _
        _ = .ok (escapeByte :: d) := by rw [ih]; rfl
    · simp only [stuff, if_neg hflag, if_neg hesc]
      rw [unstuffFrom_plain i hflag hesc, ih]
      rfl

/-- Settles O34: the scan from index 0. -/
theorem unstuffUndoesStuff : Obligations.UnstuffUndoesStuff := unstuffFrom_stuff 0

end Sys2Proof.Machine
end

section
/-! # `FRX` in each phase (41_framer_rx R100-R105) -/

namespace Sys2Proof.Machine

/-- `FRX b` completes with what the receiver makes of the byte (41_framer_rx R100). -/
theorem exec_frx_of_receive {b : Byte} {s : State} {u : Frx} {es : List Emission}
    (h : frxReceive s.maxPayload.val (s.unwritten .frx) b s.frx = .ok (u, es)) :
    exec (.frx b) s = .next ((s.setFrx u).emitAll es) := by
  simp only [exec, execFrx, frxEffect, h, Except.map, Effect.complete_ok]

section
variable (m : Nat) (free : Nat → Byte) {b : Byte} {u : Frx}

theorem frxReceive_af_flag (hp : u.phase = .af) : frxReceive m free 0x7E u = .ok ({ u with phase := .ac }, []) := by
  simp only [frxReceive, hp]
  rfl

theorem frxReceive_af_of_ne (hp : u.phase = .af) (hb : b ≠ 0x7E) :
    frxReceive m free b u = .ok (u, [diag .frGarbage b]) := by
  have hb : b ≠ flagByte := hb
  simp only [frxReceive, hp, frxAwaitFlag, if_neg hb]

theorem frxReceive_ac (hp : u.phase = .ac) : frxReceive m free b u = .ok ({ u with cmd := b, phase := .al }, []) := by
  simp only [frxReceive, hp, frxAwaitCommand]

variable {m}

theorem frxReceive_al_of_lt (hp : u.phase = .al) (hb : m < b.toNat) :
    frxReceive m free b u = .ok (u.clear, [diag .frOverflow b]) := by
  simp only [frxReceive, hp, frxAwaitLength, if_pos hb, Frx.recover]

/-- The length 0 completes the empty frame (41_framer_rx R103, R105). -/
theorem frxReceive_al_zero (hp : u.phase = .al) :
    frxReceive m free 0 u = .ok (u.clear, [.dlv (.frFrame u.cmd [])]) := by
  simp only [frxReceive, hp, frxAwaitLength]
  rfl

theorem frxReceive_al_of_le (hp : u.phase = .al) (hb : b.toNat ≤ m) (h0 : b ≠ 0) :
    frxReceive m free b u = .ok ({ u with len := b, fill := 0, phase := .ap }, []) := by
  simp only [frxReceive, hp, frxAwaitLength, if_neg (Nat.not_lt.2 hb), if_neg h0]

theorem frxReceive_ap_of_ne (hp : u.phase = .ap) (hfill : u.fill.toNat < m) (hlen : u.fill + 1 ≠ u.len) :
    frxReceive m free b u = .ok ({ u with buf := u.buf.put u.fill.toNat b, fill := u.fill + 1 }, []) := by
  simp only [frxReceive, hp, frxAccumulate_of_lt m free b u hfill, if_neg hlen]

/-- The last payload byte completes the frame of the bytes stored before and itself (41_framer_rx R104, R105). -/
theorem frxReceive_ap_last (hp : u.phase = .ap) (hfill : u.fill.toNat < m)
    (hlen : u.fill.toNat + 1 = u.len.toNat) :
    frxReceive m free b u = .ok ({ u.clear with buf := u.buf.put u.fill.toNat b },
      [match unstuff (u.buf.readSeq free 0 u.fill.toNat ++ [b]) with
        | .ok p => .dlv (.frFrame u.cmd p)
        | .error (.illegalFlag i) => diag .frIllegalFlag (BitVec.ofNat 8 i)
        | .error (.badEscape i) => diag .frBadEscape (BitVec.ofNat 8 i)]) := by
  have heq : u.fill + 1 = u.len := by bv_omega
  simp only [frxReceive, hp, frxAccumulate_of_lt m free b u hfill, if_pos heq, frxComplete, ← hlen,
    Memory.readSeq_put]
  rcases unstuff (u.buf.readSeq free 0 u.fill.toNat ++ [b]) with (i | i) | p <;> rfl

end

/-- Settles O22: the flag moves the receiver on, and any other byte is garbage. -/
theorem frxAwaitsFlag : Obligations.FrxAwaitsFlag := by
  intro s b hp
  refine ⟨?_, fun hb => exec_frx_of_receive (frxReceive_af_of_ne _ _ hp hb)⟩
  rintro rfl
  exact exec_frx_of_receive (frxReceive_af_flag _ _ hp)

/-- Settles O23: any byte is the command. -/
theorem frxTakesCommand : Obligations.FrxTakesCommand :=
  fun _ _ hp => exec_frx_of_receive (frxReceive_ac _ _ hp)

/-- Settles O24: the length byte is too large, 0, or the number of bytes to come. -/
theorem frxTakesLength : Obligations.FrxTakesLength := by
  intro s b hp
  split
  next hb => exact exec_frx_of_receive (frxReceive_al_of_lt _ hp hb)
  next hb =>
    split
    next h0 =>
      subst h0
      exact exec_frx_of_receive (frxReceive_al_zero _ hp)
    next h0 => exact exec_frx_of_receive (frxReceive_al_of_le _ hp (Nat.not_lt.1 hb) h0)

/-- Settles O25: a byte before the last is stored. -/
theorem frxStoresPayloadByte : Obligations.FrxStoresPayloadByte :=
  fun _ _ hp hfill hlen => exec_frx_of_receive (frxReceive_ap_of_ne _ hp hfill hlen)

/-- Settles O26: `fill + 1` does not wrap, since `fill` is below `MAX_PAYLOAD`, so the last byte completes the frame. -/
theorem frxCompletesFrame : Obligations.FrxCompletesFrame := by
  intro s b hp hfill hlen frx
  have hmax : s.maxPayload.val < 256 := s.maxPayload.isLt
  have hlast : s.frx.fill.toNat + 1 = s.frx.len.toNat := by bv_omega
  rw [exec_frx_of_receive (frxReceive_ap_last _ hp hfill hlast)]
  rcases unstuff (s.frx.buf.readSeq (s.unwritten .frx) 0 s.frx.fill.toNat ++ [b]) with (i | i) | p <;> rfl

end Sys2Proof.Machine
end

section
/-! # Bytes fed to the framer's receiver (41_framer_rx R114; 42_framer_tx R150) -/

namespace Sys2Proof.Machine

/-! ## Feeding bytes -/

/-- `FRX` of the bytes, in order, takes the record of `frx` from the first to the second, and emits the values; `m` is
`MAX_PAYLOAD`. -/
inductive FrxFeeds (m : Nat) (free : Nat → Byte) : Frx → List Byte → Frx → List Emission → Prop where
  | nil (u : Frx) : FrxFeeds m free u [] u []
  | cons {u v w : Frx} {b : Byte} {bs : List Byte} {es fs : List Emission}
      (head : frxReceive m free b u = .ok (v, es)) (tail : FrxFeeds m free v bs w fs) :
      FrxFeeds m free u (b :: bs) w (es ++ fs)

/-- What the receiver makes of the bytes is what the run that offers them leaves. -/
theorem FrxFeeds.runToEnd {s : State} {bs : List Byte} {w : Frx} {es : List Emission}
    (h : FrxFeeds s.maxPayload.val (s.unwritten .frx) s.frx bs w es) :
    ∃ t, runToEnd (s.offering (bs.map .frx)) = .next t ∧ t.frx = w ∧ t.ports = s.ports.emitAll es := by
  induction bs generalizing s es with
  | nil =>
    cases h
    exact ⟨_, runToEnd_nil _ rfl, rfl, rfl⟩
  | cons b bs ih =>
    cases h with
    | @cons _ v _ _ _ es fs hhead htail =>
      have heffect : instrEffect (.frx b) (s.accept (offer (bs.map .frx))) =
          .ok ((s.accept (offer (bs.map .frx))).setFrx v, es) := congrArg (Except.map _) hhead
      rw [List.map_cons, runToEnd_offering_cons heffect]
      obtain ⟨t, ht, hfrx, hports⟩ :=
        ih (s := ((s.accept (offer (bs.map .frx))).setFrx v).emitAll es) htail
      exact ⟨t, ht, hfrx, by rw [hports, Ports.emitAll_append]; rfl⟩

/-! ## Garbage -/

/-- Garbage leaves the record as it was (41_framer_rx R114). -/
theorem frxFeeds_garbage (m : Nat) (free : Nat → Byte) {u : Frx} (hp : u.phase = .af) {g : List Byte}
    (hg : (0x7E : Byte) ∉ g) : FrxFeeds m free u g u (g.map (diag .frGarbage)) := by
  induction g with
  | nil => exact .nil u
  | cons b g ih =>
    obtain ⟨hb, hg⟩ := not_or.1 (mt List.mem_cons.2 hg)
    exact .cons (frxReceive_af_of_ne m free hp (Ne.symm hb)) (ih hg)

/-- Diagnostics go to `DIAG` as one sequence. -/
theorem Ports.emitAll_map_diag (p : Ports) (ds : List Diag) :
    p.emitAll (ds.map .diag) = { p with diag := p.diag ++ ds } := by
  induction ds generalizing p with
  | nil => simp
  | cons d ds ih =>
    calc (p.emit (.diag d)).emitAll (ds.map .diag)
        = { p with diag := (p.diag ++ [d]) ++ ds } := ih _
      _ = { p with diag := p.diag ++ d :: ds } := by rw [List.append_assoc]; rfl

/-- Settles O30: the run leaves what feeding the garbage leaves. -/
theorem garbageIsReportedByteByByte : Obligations.GarbageIsReportedByteByByte := by
  intro s g hp hg
  obtain ⟨t, ht, hfrx, hports⟩ := (frxFeeds_garbage s.maxPayload.val (s.unwritten .frx) hp hg).runToEnd
  refine ⟨t, ht, hfrx, ?_⟩
  rw [hports, ← Ports.emitAll_map_diag, List.map_map]
  rfl

/-! ## A frame -/

/-- The rest of a payload, fed in phase AP, delivers what the whole unstuffs to (41_framer_rx R104, R105). -/
theorem frxFeeds_payload {m : Nat} {free : Nat → Byte} {bs p : List Byte} (hbs : bs ≠ []) {u : Frx}
    (hp : u.phase = .ap) (hlen : u.fill.toNat + bs.length = u.len.toNat) (hmax : u.len.toNat ≤ m)
    (hunstuff : unstuff (u.buf.readSeq free 0 u.fill.toNat ++ bs) = .ok p) :
    ∃ v : Frx, v.Initial ∧ FrxFeeds m free u bs v [.dlv (.frFrame u.cmd p)] := by
  induction bs generalizing u with
  | nil => exact absurd rfl hbs
  | cons b bs ih =>
    rw [List.length_cons] at hlen
    have hfill : u.fill.toNat < m := by omega
    by_cases hend : bs = []
    · subst hend
      have hlast := frxReceive_ap_last free (b := b) hp hfill hlen
      rw [hunstuff] at hlast
      exact ⟨_, ⟨rfl, rfl, rfl, rfl⟩, .cons hlast (.nil _)⟩
    · have hpos : 0 < bs.length := List.length_pos_of_ne_nil hend
      have hcount : (u.fill + 1).toNat = u.fill.toNat + 1 := by bv_omega
      have hne : u.fill + 1 ≠ u.len := fun he => by rw [he] at hcount; omega
      obtain ⟨v, hv, hfeeds⟩ :=
        ih hend (u := { u with buf := u.buf.put u.fill.toNat b, fill := u.fill + 1 }) hp (by simp only [hcount]; omega)
          hmax (by rw [hcount, Memory.readSeq_put, List.append_assoc]; exact hunstuff)
      exact ⟨v, hv, .cons (frxReceive_ap_of_ne free hp hfill hne) hfeeds⟩

/-- The flag and the command of a frame bring the receiver to its length byte (41_framer_rx R101, R102). -/
theorem FrxFeeds.of_length {m : Nat} {free : Nat → Byte} {u v : Frx} {c : Byte} {bs : List Byte}
    {es : List Emission} (hp : u.phase = .af) (h : FrxFeeds m free { u with cmd := c, phase := .al } bs v es) :
    FrxFeeds m free u (0x7E :: c :: bs) v es :=
  .cons (frxReceive_af_flag m free hp) (.cons (frxReceive_ac m free rfl) h)

/-- A stuffed length of at most 255 is what the length byte of the frame says (42_framer_tx R146). -/
theorem toNat_lengthByte {d : List Byte} (hd : slen d ≤ 255) : (BitVec.ofNat 8 (slen d)).toNat = slen d :=
  Nat.mod_eq_of_lt (Nat.lt_succ_of_le hd)

/-- A frame whose stuffed payload fits is delivered as it was sent (42_framer_tx R150). -/
theorem frxFeeds_frame {m : Nat} (free : Nat → Byte) {u : Frx} (hp : u.phase = .af) (c : Byte) {d : List Byte}
    (hd : slen d ≤ 255) (hmax : slen d ≤ m) :
    ∃ v : Frx, v.Initial ∧ FrxFeeds m free u (frame c d) v [.dlv (.frFrame c d)] := by
  have hlen := toNat_lengthByte hd
  by_cases hempty : stuff d = []
  · have hframe : frame c d = [0x7E, c, 0] := by simp only [frame, slen, hempty]; rfl
    obtain rfl : d = [] := Except.ok.inj ((unstuffUndoesStuff d).symm.trans (by rw [hempty]; rfl))
    rw [hframe]
    exact ⟨_, ⟨rfl, rfl, rfl, rfl⟩, .of_length hp (.cons (frxReceive_al_zero free rfl) (.nil _))⟩
  · have hpos : 0 < slen d := List.length_pos_of_ne_nil hempty
    have hne : BitVec.ofNat 8 (slen d) ≠ 0 := fun h0 => by rw [h0] at hlen; exact hpos.ne hlen
    obtain ⟨v, hv, hfeeds⟩ :=
      frxFeeds_payload (m := m) (free := free) hempty
        (u := { u with cmd := c, len := BitVec.ofNat 8 (slen d), fill := 0, phase := .ap }) rfl
        ((Nat.zero_add _).trans hlen.symm) (hlen.trans_le hmax) (unstuffUndoesStuff d)
    exact ⟨v, hv, .of_length hp (.cons (frxReceive_al_of_le free rfl (hlen.trans_le hmax) hne) hfeeds)⟩

/-- The length byte of a frame that does not fit is an overflow (41_framer_rx R103). -/
theorem frxFeeds_frame_overflow {m : Nat} (free : Nat → Byte) {u : Frx} (hp : u.phase = .af) (c : Byte)
    {d : List Byte} (hd : slen d ≤ 255) (hmax : m < slen d) :
    ∃ v : Frx, v.Initial ∧
      FrxFeeds m free u ((frame c d).take 3) v [diag .frOverflow (BitVec.ofNat 8 (slen d))] := by
  have hlen := toNat_lengthByte hd
  exact ⟨_, ⟨rfl, rfl, rfl, rfl⟩,
    .of_length hp (.cons (frxReceive_al_of_lt free rfl (hmax.trans_eq hlen.symm)) (.nil _))⟩

/-- Settles O37: the run leaves what feeding the frame, or its first three bytes, leaves. -/
theorem framerLoopback : Obligations.FramerLoopback := by
  refine fun s c d hp hd => ⟨fun hmax => ?_, fun hmax => ?_⟩
  · obtain ⟨v, hv, hfeeds⟩ := frxFeeds_frame (s.unwritten .frx) hp c hd hmax
    obtain ⟨t, ht, rfl, hports⟩ := hfeeds.runToEnd
    exact ⟨t, ht, hv, hports⟩
  · obtain ⟨v, hv, hfeeds⟩ := frxFeeds_frame_overflow (s.unwritten .frx) hp c hd hmax
    obtain ⟨t, ht, rfl, hports⟩ := hfeeds.runToEnd
    exact ⟨t, ht, hv, hports⟩

end Sys2Proof.Machine
end

section
/-! # What the receivers leave (41_framer_rx R100, R112; 43_rl_rx R181) -/

namespace Sys2Proof.Machine

/-- `FRX` answers a next state only through its receiver (41_framer_rx R100). -/
theorem exec_frx_cases {b : Byte} {s t : State} (h : exec (.frx b) s = .next t) :
    ∃ u es, frxReceive s.maxPayload.val (s.unwritten .frx) b s.frx = .ok (u, es) ∧
      t = (s.setFrx u).emitAll es := by
  cases hr : frxReceive s.maxPayload.val (s.unwritten .frx) b s.frx with
  | error f => cases (exec_frx_of_receive_error hr).symm.trans h
  | ok r => exact ⟨r.1, r.2, rfl, (Host.Outcome.next.inj ((exec_frx_of_receive hr).symm.trans h)).symm⟩

/-- `RRX` answers a next state only through its receiver (43_rl_rx R170). -/
theorem exec_rrx_cases {b : Byte} {s t : State} (h : exec (.rrx b) s = .next t) :
    ∃ u es, rrxReceive (s.unwritten .rrx) b s.rrx = .ok (u, es) ∧ t = (s.setRrx u).emitAll es := by
  cases hr : rrxReceive (s.unwritten .rrx) b s.rrx with
  | error f => cases (exec_rrx_of_receive_error hr).symm.trans h
  | ok r => exact ⟨r.1, r.2, rfl, (Host.Outcome.next.inj ((exec_rrx_of_receive hr).symm.trans h)).symm⟩

/-! ## Initial after a frame -/

theorem Frx.initial_clear (u : Frx) : u.clear.Initial := ⟨rfl, rfl, rfl, rfl⟩

theorem Rrx.initial_clear (u : Rrx) : u.clear.Initial := ⟨rfl, rfl, rfl, rfl⟩

theorem frxComplete_initial (free : Nat → Byte) (u : Frx) : (frxComplete free u).1.Initial := by
  rw [(frxComplete_cases free u).1]
  exact u.initial_clear

theorem rrxComplete_initial (free : Nat → Byte) (u : Rrx) : (rrxComplete free u).1.Initial := by
  rw [(rrxComplete_cases free u).1]
  exact u.initial_clear

/-- A byte that makes `FRX` emit anything but garbage leaves `frx` initial (41_framer_rx R112). -/
theorem frxReceive_initial_of_emits {m : Nat} {free : Nat → Byte} {b : Byte} {u u' : Frx} {es : List Emission}
    (h : frxReceive m free b u = .ok (u', es)) :
    es = [] ∨ (u.phase = .af ∧ es = [diag .frGarbage b]) ∨ u'.Initial := by
  rcases frxReceive_cases m free b u u' es h with ⟨-, -, -, rfl⟩ | ⟨hp, -, -, rfl⟩ | ⟨-, -, rfl⟩ |
    ⟨-, -, rfl, -⟩ | ⟨-, -, hc⟩ | ⟨-, -, -, -, rfl⟩ | ⟨-, -, -, hc⟩ | ⟨-, -, -, -, rfl⟩
  · exact .inl rfl
  · exact .inr (.inl ⟨hp, rfl⟩)
  · exact .inl rfl
  · exact .inr (.inr u.initial_clear)
  · obtain rfl : u' = _ := congrArg Prod.fst hc
    exact .inr (.inr (frxComplete_initial free _))
  · exact .inl rfl
  · obtain rfl : u' = _ := congrArg Prod.fst hc
    exact .inr (.inr (frxComplete_initial free _))
  · exact .inl rfl

/-- A byte that makes `RRX` emit anything leaves `rrx` initial, but for garbage, and for an early boundary, which leaves
phase LEN (43_rl_rx R181). -/
theorem rrxReceive_initial_of_emits {free : Nat → Byte} {b : Byte} {u u' : Rrx} {es : List Emission}
    (h : rrxReceive free b u = .ok (u', es)) :
    es = [] ∨ (u.phase = .idle ∧ b ≠ 0 ∧ es = [diag .rlUnexpected b]) ∨ (b ≠ 0 ∧ u'.Initial) ∨
    (b = 0 ∧ u' = { u.clear with phase := .len } ∧ ∃ info, es = [diag .rlIncomplete info]) := by
  rcases rrxReceive_cases free b u u' es h with ⟨-, -, -, rfl⟩ | ⟨hp, hb, -, rfl⟩ | ⟨-, -, -, rfl⟩ |
    ⟨-, hb, -, rfl, -⟩ | ⟨-, -, -, -, rfl⟩ | ⟨-, hb, rfl, rfl⟩ | ⟨-, hb, -, -, hc⟩ | ⟨-, -, -, -, -, rfl⟩
  · exact .inl rfl
  · exact .inr (.inl ⟨hp, hb, rfl⟩)
  · exact .inl rfl
  · exact .inr (.inr (.inl ⟨hb, u.initial_clear⟩))
  · exact .inl rfl
  · exact .inr (.inr (.inr ⟨hb, rfl, _, rfl⟩))
  · obtain rfl : u' = _ := congrArg Prod.fst hc
    exact .inr (.inr (.inl ⟨hb, rrxComplete_initial free _⟩))
  · exact .inl rfl

@[simp] theorem Emission.onDlv_diag (tag : DiagTag) (info : Byte) : (Machine.diag tag info).onDlv = none := rfl

/-- Settles O44: a delivery or report is an emission that is neither garbage nor, but for the last clause, an early
boundary's. -/
theorem receiverInitialAfterFrame : Obligations.ReceiverInitialAfterFrame := by
  refine fun s t b => ⟨fun h hport => ?_, fun h => ?_⟩
  · obtain ⟨u, es, hr, rfl⟩ := exec_frx_cases h
    obtain rfl | ⟨hp, rfl⟩ | hinit := frxReceive_initial_of_emits hr
    · exact absurd hport (by simp)
    · exact absurd hport (by simp [hp])
    · exact hinit
  · obtain ⟨u, es, hr, rfl⟩ := exec_rrx_cases h
    obtain rfl | ⟨hp, hb, rfl⟩ | ⟨hb, hinit⟩ | ⟨rfl, rfl, info, rfl⟩ := rrxReceive_initial_of_emits hr
    · exact ⟨fun hport => absurd hport (by simp), fun ⟨hdiag, _⟩ => absurd rfl hdiag⟩
    · exact ⟨fun hport => absurd hport (by simp [hp]),
        fun ⟨_, hzero⟩ => absurd hzero hb⟩
    · exact ⟨fun _ => hinit, fun ⟨_, hzero⟩ => absurd hzero hb⟩
    · exact ⟨fun hport => absurd hport (by simp),
        fun _ => ⟨rfl, rfl, rfl, rfl⟩⟩

/-! ## The frame of `FRX` -/

/-- What a receiver emits leaves the transmitters' ports alone (30_encoding R85). -/
theorem Ports.emitAll_of_source_receiver {unit : UnitId} (hunit : unit = .frx ∨ unit = .rrx) (p : Ports)
    {es : List Emission} (hes : ∀ e ∈ es, e.source = some unit) :
    (p.emitAll es).fw = p.fw ∧ (p.emitAll es).rw = p.rw ∧ (p.emitAll es).res = p.res := by
  have honly : ∀ e ∈ es, e.onFw = none ∧ e.onRw = none ∧ e.onRes = none := by
    intro e he
    have hsrc := hes e he
    cases e with
    | fw _ | rw _ => rcases hunit with rfl | rfl <;> cases hsrc
    | dlv _ | diag _ => exact ⟨rfl, rfl, rfl⟩
    | res r => obtain ⟨_ | _, _⟩ := r <;> rcases hunit with rfl | rfl <;> cases hsrc
  simpa only [Ports.emitAll_fw, Ports.emitAll_rw, Ports.emitAll_res, List.append_right_eq_self,
    List.filterMap_eq_nil_iff, forall₂_and] using honly

theorem frxComplete_buf (free : Nat → Byte) (u : Frx) : (frxComplete free u).1.buf = u.buf := by
  rw [(frxComplete_cases free u).1, Frx.clear_buf]

/-- `FRX` writes its buffer in phase AP only, and there at `fill` (41_framer_rx R104). -/
theorem frxReceive_buf {m : Nat} {free : Nat → Byte} {b : Byte} {u u' : Frx} {es : List Emission}
    (h : frxReceive m free b u = .ok (u', es)) :
    u'.buf = u.buf ∨ (u.phase = .ap ∧ u'.buf = u.buf.put u.fill.toNat b) := by
  rcases frxReceive_cases m free b u u' es h with ⟨-, -, rfl, -⟩ | ⟨-, -, rfl, -⟩ | ⟨-, rfl, -⟩ |
    ⟨-, -, rfl, -⟩ | ⟨-, -, hc⟩ | ⟨-, -, -, rfl, -⟩ | ⟨hp, -, -, hc⟩ | ⟨hp, -, -, rfl, -⟩
  · exact .inl rfl
  · exact .inl rfl
  · exact .inl rfl
  · exact .inl rfl
  · obtain rfl : u' = _ := congrArg Prod.fst hc
    exact .inl (frxComplete_buf free _)
  · exact .inl rfl
  · obtain rfl : u' = _ := congrArg Prod.fst hc
    exact .inr ⟨hp, frxComplete_buf free _⟩
  · exact .inr ⟨hp, rfl⟩

/-- Settles O56: `FRX` writes the record of `frx` alone, and emits what is from `frx` alone. -/
theorem frxFrame : Obligations.FrxFrame := by
  intro s t b h
  obtain ⟨u, es, hr, rfl⟩ := exec_frx_cases h
  obtain ⟨hfw, hrw, hres⟩ := s.ports.emitAll_of_source_receiver (.inl rfl) (frxReceive_source hr)
  refine ⟨rfl, rfl, rfl, rfl, rfl, rfl, rfl, hfw, hrw, hres, fun i hi => ?_⟩
  change u.buf.read (s.unwritten .frx) i = s.frx.buf.read (s.unwritten .frx) i
  rcases frxReceive_buf hr with hbuf | ⟨hp, hbuf⟩
  · rw [hbuf]
  · rw [hbuf, Memory.read_put, if_neg (Ne.symm (hi hp))]

end Sys2Proof.Machine
end

section
/-! # `FTXB`, `FTXD` and `FTXE` (42_framer_tx R141-R147) -/

namespace Sys2Proof.Machine

/-- `FTXB c` completes with what it makes of the record (42_framer_tx R141). -/
theorem exec_ftxb (c : Byte) (s : State) :
    exec (.ftxb c) s = .next ((s.setFtx (ftxBegin c s.ftx).1).emitAll (ftxBegin c s.ftx).2) := rfl

/-- `FTXD b` completes with what it makes of the record (42_framer_tx R142). -/
theorem exec_ftxd (b : Byte) (s : State) :
    exec (.ftxd b) s = .next ((s.setFtx (ftxData s.maxPayload.val b s.ftx).1).emitAll
      (ftxData s.maxPayload.val b s.ftx).2) := rfl

/-- `FTXE` completes with what it makes of the record (42_framer_tx R143). -/
theorem exec_ftxe (s : State) :
    exec .ftxe s = .next ((s.setFtx (ftxEnd (s.unwritten .ftx) s.ftx).1).emitAll
      (ftxEnd (s.unwritten .ftx) s.ftx).2) := rfl

/-! ## The checks of `FTXE`, in their order (42_framer_tx R147) -/

section
variable {u : Ftx} {d : List Byte}

theorem ftxeResult_empty (hn : u.n = 0) : ftxeResult u d = .empty := if_pos hn

theorem ftxeResult_tooLong (hn : u.n ≠ 0) (hover : u.overflowed = true) : ftxeResult u d = .tooLong := by
  simp only [ftxeResult, if_neg hn, if_pos hover]

theorem ftxeResult_stuffedTooLong (hn : u.n ≠ 0) (hover : ¬ u.overflowed = true) (hlen : 255 < slen d) :
    ftxeResult u d = .stuffedTooLong := by
  simp only [ftxeResult, if_neg hn, if_neg hover, if_pos hlen]

theorem ftxeResult_ok (hn : u.n ≠ 0) (hover : ¬ u.overflowed = true) (hlen : ¬ 255 < slen d) :
    ftxeResult u d = .ok := by
  simp only [ftxeResult, if_neg hn, if_neg hover, if_neg hlen]

end

/-! ## What `FTXE` does, by the result of its checks -/

section
variable {s : State}

theorem exec_ftxe_of_inactive (ha : s.ftx.active = false) :
    exec .ftxe s = .next { s with ports := { s.ports with
      diag := s.ports.diag ++ [⟨.txSeq, 0x50⟩], res := s.ports.res ++ [⟨.fr, .notBegun⟩] } } := by
  obtain ⟨-, he⟩ | ⟨hactive, -⟩ | ⟨hactive, -⟩ := ftxEnd_cases (s.unwritten .ftx) s.ftx
  · rw [exec_ftxe, he]
    rfl
  · exact absurd hactive (by simp [ha])
  · exact absurd hactive (by simp [ha])

/-- A frame that passes the checks is emitted whole (42_framer_tx R143, R146). -/
theorem exec_ftxe_of_result_ok (ha : s.ftx.active = true)
    (hr : ftxeResult s.ftx (s.ftx.buf.readSeq (s.unwritten .ftx) 0 s.ftx.n.toNat) = .ok) :
    exec .ftxe s = .next { s with
      ftx := s.ftx.clear
      ports := { s.ports with
        fw := s.ports.fw ++ frame s.ftx.cmd (s.ftx.buf.readSeq (s.unwritten .ftx) 0 s.ftx.n.toNat)
        res := s.ports.res ++ [⟨.fr, .ok⟩] } } := by
  obtain ⟨hinactive, -⟩ | ⟨-, -, he⟩ | ⟨-, r, hok, -, hr', -⟩ := ftxEnd_cases (s.unwritten .ftx) s.ftx
  · exact absurd hinactive (by simp [ha])
  · rw [exec_ftxe, he, State.emitAll, State.setFtx_ports, Ports.emitAll_map_fw]
    rfl
  · exact absurd (hr'.symm.trans hr) hok

/-- A frame that fails a check is discarded, with one diagnostic and one result (42_framer_tx R143). -/
theorem exec_ftxe_of_result_ne_ok (ha : s.ftx.active = true) {r : ResCode} (hok : r ≠ .ok)
    (hr : ftxeResult s.ftx (s.ftx.buf.readSeq (s.unwritten .ftx) 0 s.ftx.n.toNat) = r) :
    exec .ftxe s = .next { s with
      ftx := s.ftx.clear
      ports := { s.ports with
        diag := s.ports.diag ++ [⟨.frCapacity, r.info⟩], res := s.ports.res ++ [⟨.fr, r⟩] } } := by
  obtain ⟨hinactive, -⟩ | ⟨-, hr', -⟩ | ⟨-, r', -, -, hr', he⟩ := ftxEnd_cases (s.unwritten .ftx) s.ftx
  · exact absurd hinactive (by simp [ha])
  · exact absurd (hr.symm.trans hr') hok
  · obtain rfl : r' = r := hr'.symm.trans hr
    rw [exec_ftxe, he]
    rfl

end

/-- Settles O33: the checks in the order of R147, and what `FTXE` does by their result. -/
theorem ftxeEndsFrame : Obligations.FtxeEndsFrame := by
  intro s d ftx refused
  refine ⟨Laws.RowEncoding.ftxe.2, decode_encode .ftxe, ?_⟩
  split
  next hinactive => exact exec_ftxe_of_inactive hinactive
  next hactive =>
    have ha : s.ftx.active = true := Bool.eq_true_of_not_eq_false hactive
    split
    next hn => exact exec_ftxe_of_result_ne_ok (r := .empty) ha nofun (ftxeResult_empty hn)
    next hn =>
      split
      next hover => exact exec_ftxe_of_result_ne_ok (r := .tooLong) ha nofun (ftxeResult_tooLong hn hover)
      next hover =>
        split
        next hlen =>
          exact exec_ftxe_of_result_ne_ok (r := .stuffedTooLong) ha nofun (ftxeResult_stuffedTooLong hn hover hlen)
        next hlen => exact exec_ftxe_of_result_ok ha (ftxeResult_ok hn hover hlen)

/-- Settles O31: `FTXB` emits only where a frame was begun. -/
theorem ftxbBeginsFrame : Obligations.FtxbBeginsFrame := by
  intro s c
  refine ⟨(Laws.RowEncoding.ftxb c).2, decode_encode (.ftxb c), ?_⟩
  rw [exec_ftxb, ftxBegin]
  cases s.ftx.active <;> rfl

/-- Settles O32: by what `FTXD` can do. -/
theorem ftxdAppendsByte : Obligations.FtxdAppendsByte := by
  intro s b
  refine ⟨(Laws.RowEncoding.ftxd b).2, decode_encode (.ftxd b), ?_⟩
  rw [exec_ftxd]
  obtain ⟨ha, he⟩ | ⟨ha, hn, he⟩ | ⟨ha, hn, he⟩ := ftxData_cases s.maxPayload.val b s.ftx <;> rw [he]
  · rw [if_pos ha]
    rfl
  · rw [if_neg (by simp [ha]), if_pos hn]
    rfl
  · rw [if_neg (by simp [ha]), if_neg (Nat.not_lt.2 hn)]
    rfl

end Sys2Proof.Machine
end

section
/-! # The stuffed length (42_framer_tx R144, R145) -/

namespace Sys2Proof.Machine

/-- A flag or escape adds two bytes to the stuffed payload, any other byte one (42_framer_tx R144). -/
theorem slen_cons (x : Byte) (d : List Byte) :
    slen (x :: d) = slen d + 1 + if x == 0x7E || x == 0x7D then 1 else 0 := by
  by_cases hflag : x = 0x7E
  · subst hflag
    rfl
  · by_cases hesc : x = 0x7D
    · subst hesc
      rfl
    · have hplain : stuff (x :: d) = x :: stuff d := by
        simp only [stuff, if_neg (show x ≠ flagByte from hflag), if_neg (show x ≠ escapeByte from hesc)]
      rw [slen, hplain, beq_false_of_ne hflag, beq_false_of_ne hesc]
      rfl

/-- The stuffed length counts each byte once, and each flag and escape once more (42_framer_tx R145). -/
theorem slen_eq_length_add_countP (d : List Byte) :
    slen d = d.length + d.countP (fun x => x == 0x7E || x == 0x7D) := by
  induction d with
  | nil => rfl
  | cons x d ih =>
    rw [slen_cons, ih, List.countP_cons, List.length_cons]
    omega

/-- Settles O36: the flags and escapes are at most all the bytes. -/
theorem stuffedLengthCounts : Obligations.StuffedLengthCounts := by
  intro d
  have hle : d.countP (fun x => x == 0x7E || x == 0x7D) ≤ d.length := List.countP_le_length
  exact ⟨slen_eq_length_add_countP d, by rw [slen_eq_length_add_countP]; omega⟩

end Sys2Proof.Machine
end

section
/-! # What the StuffedFramer transmitter leaves (42_framer_tx R141-R143) -/

namespace Sys2Proof.Machine

/-! ## The emissions -/

/-- A transmitter's values leave `DLV` alone (30_encoding R85, R86). -/
theorem Ports.emitAll_dlv_of_source_transmitter {unit : UnitId} (hunit : unit = .ftx ∨ unit = .rtx) (p : Ports)
    {es : List Emission} (hes : ∀ e ∈ es, e.source = some unit) : (p.emitAll es).dlv = p.dlv := by
  have hnone : ∀ e ∈ es, e.onDlv = none := by
    intro e he
    have hsrc := hes e he
    cases e with
    | dlv d => rcases hunit with rfl | rfl <;> cases d <;> cases hsrc
    | fw _ | rw _ | diag _ | res _ => rfl
  rw [Ports.emitAll_dlv, List.filterMap_eq_nil_iff.2 hnone, List.append_nil]

theorem ftxBegin_emits_diag (c : Byte) (u : Ftx) : ∃ ds : List Diag, (ftxBegin c u).2 = ds.map .diag := by
  cases ha : u.active
  · exact ⟨[], by simp [ftxBegin, ha]⟩
  · exact ⟨[⟨.txSeq, 0x30⟩], by simp [ftxBegin, ha, diag]⟩

theorem ftxData_emits_diag (m : Nat) (b : Byte) (u : Ftx) : ∃ ds : List Diag, (ftxData m b u).2 = ds.map .diag := by
  obtain ⟨-, he⟩ | ⟨-, -, he⟩ | ⟨-, -, he⟩ := ftxData_cases m b u <;> rw [he]
  · exact ⟨[⟨.txSeq, 0x40⟩], rfl⟩
  · exact ⟨[], rfl⟩
  · exact ⟨[], rfl⟩

/-! ## The record -/

theorem ftxData_active_cmd (m : Nat) (b : Byte) (u : Ftx) :
    (ftxData m b u).1.active = u.active ∧ (ftxData m b u).1.cmd = u.cmd := by
  obtain ⟨-, he⟩ | ⟨-, -, he⟩ | ⟨-, -, he⟩ := ftxData_cases m b u <;> rw [he] <;> exact ⟨rfl, rfl⟩

/-- `FTXD` writes its buffer only where a frame is begun and not full, and there at `n` (42_framer_tx R142). -/
theorem ftxData_buf (m : Nat) (b : Byte) (u : Ftx) :
    (ftxData m b u).1.buf = u.buf ∨
    (u.active = true ∧ u.n.toNat < m ∧ (ftxData m b u).1.buf = u.buf.put u.n.toNat b) := by
  obtain ⟨-, he⟩ | ⟨ha, hn, he⟩ | ⟨-, -, he⟩ := ftxData_cases m b u <;> rw [he]
  · exact .inl rfl
  · exact .inr ⟨ha, hn, rfl⟩
  · exact .inl rfl

theorem ftxEnd_buf (free : Nat → Byte) (u : Ftx) : (ftxEnd free u).1.buf = u.buf := by
  obtain ⟨-, he⟩ | ⟨-, -, he⟩ | ⟨-, r, -, -, -, he⟩ := ftxEnd_cases free u <;> rw [he] <;> rfl

/-! ## The frame -/

/-- What the three operations have in common: they write the record of `ftx` alone, and emit what is from `ftx`. -/
theorem exec_ftx_cases {s t : State} {i : Instr} (hi : ∃ b, i = .ftxb b ∨ i = .ftxd b ∨ i = .ftxe)
    (h : exec i s = .next t) :
    ∃ u es, t = (s.setFtx u).emitAll es ∧ (∀ e ∈ es, e.source = some .ftx) ∧
      (i ≠ .ftxe → ∃ ds : List Diag, es = ds.map .diag) ∧
      (∀ b, i = .ftxd b → u.active = s.ftx.active ∧ u.cmd = s.ftx.cmd) ∧
      (u.buf = s.ftx.buf ∨ ∃ b, i = .ftxd b ∧ s.ftx.active = true ∧ s.ftx.n.toNat < s.maxPayload.val ∧
        u.buf = s.ftx.buf.put s.ftx.n.toNat b) := by
  obtain ⟨b, rfl | rfl | rfl⟩ := hi <;> obtain rfl := Host.Outcome.next.inj h
  · exact ⟨_, _, rfl, ftxBegin_source b s.ftx, fun _ => ftxBegin_emits_diag b s.ftx, nofun, .inl rfl⟩
  · exact ⟨_, _, rfl, ftxData_source _ b s.ftx, fun _ => ftxData_emits_diag _ b s.ftx,
      fun _ _ => ftxData_active_cmd _ b s.ftx, (ftxData_buf _ b s.ftx).imp_right fun hput => ⟨b, rfl, hput⟩⟩
  · exact ⟨_, _, rfl, ftxEnd_source _ s.ftx, fun hne => absurd rfl hne, nofun, .inl (ftxEnd_buf _ s.ftx)⟩

/-- Settles O58: `ftx` is the only record written, and what is emitted is from `ftx`. -/
theorem ftxFrame : Obligations.FtxFrame := by
  intro s t i hi h
  obtain ⟨u, es, rfl, hsrc, hdiag, hkeep, hbuf⟩ := exec_ftx_cases hi h
  have hrtx : (s.ports.emitAll es).ofUnit .rtx = s.ports.ofUnit .rtx :=
    s.ports.ofUnit_emitAll_of_source_ne .rtx es fun e he => by rw [hsrc e he]; decide
  have hrw : (s.ports.emitAll es).rw = s.ports.rw := by
    simpa only [Ports.ofUnit, if_true] using congrArg Ports.rw hrtx
  have hdlv : (s.ports.emitAll es).dlv = s.ports.dlv := s.ports.emitAll_dlv_of_source_transmitter (.inl rfl) hsrc
  refine ⟨rfl, rfl, rfl, rfl, rfl, rfl, rfl, hrw, hdlv, fun hne => ?_, hkeep, fun j hj => ?_⟩
  · obtain ⟨ds, rfl⟩ := hdiag hne
    rw [State.emitAll_ports, State.setFtx_ports, Ports.emitAll_map_diag]
    exact ⟨rfl, rfl⟩
  · change u.buf.read (s.unwritten .ftx) j = s.ftx.buf.read (s.unwritten .ftx) j
    obtain hsame | ⟨b, rfl, ha, hn, hput⟩ := hbuf
    · rw [hsame]
    · rw [hput, Memory.read_put, if_neg (Ne.symm (hj b rfl ha hn))]

end Sys2Proof.Machine
end

section
/-! # `RRX` in each phase (43_rl_rx R170-R175) -/

namespace Sys2Proof.Machine

section
variable (free : Nat → Byte) {b : Byte} {u : Rrx}

/-- Outside phase BODY a 0x00 is the boundary of a packet, and leaves the rest of the record (43_rl_rx R171, R172). -/
theorem rrxReceive_boundary (hp : u.phase = .idle ∨ u.phase = .len) :
    rrxReceive free 0 u = .ok ({ u with phase := .len }, []) := by
  rcases hp with hp | hp
  · simp only [rrxReceive, hp]
    rfl
  · simp only [rrxReceive, hp]
    rw [← hp]
    rfl

theorem rrxReceive_idle_of_ne (hp : u.phase = .idle) (hb : b ≠ 0) :
    rrxReceive free b u = .ok (u, [diag .rlUnexpected b]) := by
  simp only [rrxReceive, hp, rrxIdle, if_neg hb]

theorem rrxReceive_len_bad (hp : u.phase = .len) (hb : b ≠ 0) (hlen : lengthField b = 0) :
    rrxReceive free b u = .ok (u.clear, [diag .rlBadLength b]) := by
  simp only [rrxReceive, hp, rrxLength, if_neg hb, if_pos hlen, Rrx.recover]

theorem rrxReceive_len_of_ne (hp : u.phase = .len) (hb : b ≠ 0) (hlen : lengthField b ≠ 0) :
    rrxReceive free b u =
      .ok ({ u with mode := modeField b, len := lengthField b, fill := 0, phase := .body }, []) := by
  simp only [rrxReceive, hp, rrxLength, if_neg hb, if_neg hlen]

theorem rrxReceive_body_zero (hp : u.phase = .body) :
    rrxReceive free 0 u =
      .ok ({ u.clear with phase := .len }, [diag .rlIncomplete (BitVec.ofNat 8 u.fill.toNat)]) := by
  have hinfo : u.fill.zeroExtend 8 = BitVec.ofNat 8 u.fill.toNat := (BitVec.ofNat_toNat 8 u.fill).symm
  simp only [rrxReceive, hp, if_pos, rrxEarlyBoundary, Rrx.recover, hinfo]

theorem rrxReceive_body_of_ne (hp : u.phase = .body) (hb : b ≠ 0) (hfill : u.fill.toNat < rrxDepth)
    (hlen : u.fill + 1 ≠ u.len) :
    rrxReceive free b u = .ok ({ u with buf := u.buf.put u.fill.toNat b, fill := u.fill + 1 }, []) := by
  simp only [rrxReceive, hp, if_neg hb, rrxBody_of_lt free b u hfill, if_neg hlen]

/-- The last body byte completes the packet of the bytes stored before and itself (43_rl_rx R173, R174). -/
theorem rrxReceive_body_last (hp : u.phase = .body) (hb : b ≠ 0) (hfill : u.fill.toNat < rrxDepth)
    (hlen : u.fill.toNat + 1 = u.len.toNat) :
    rrxReceive free b u = .ok ({ u.clear with buf := u.buf.put u.fill.toNat b },
      [match rlDecode (u.buf.readSeq free 0 u.fill.toNat ++ [b]) with
        | .ok p => .dlv (.rlPacket u.mode p)
        | .error i => diag .rlBadRun (BitVec.ofNat 8 i)]) := by
  have heq : u.fill + 1 = u.len := by bv_omega
  simp only [rrxReceive, hp, if_neg hb, rrxBody_of_lt free b u hfill, if_pos heq, rrxComplete, ← hlen,
    Memory.readSeq_put]
  rcases rlDecode (u.buf.readSeq free 0 u.fill.toNat ++ [b]) with i | p <;> rfl

end

/-- Settles O42: `fill + 1` does not wrap, since `fill` is below 63, so the last byte completes the packet. -/
theorem rrxCompletesPacket : Obligations.RrxCompletesPacket := by
  intro s b hp hb hfill hlen rrx
  have hlast : s.rrx.fill.toNat + 1 = s.rrx.len.toNat := by bv_omega
  rw [exec_rrx_of_receive (rrxReceive_body_last _ hp hb hfill hlast)]
  rcases rlDecode (s.rrx.buf.readSeq (s.unwritten .rrx) 0 s.rrx.fill.toNat ++ [b]) with i | p <;> rfl

/-- Settles O41: a byte before the last is stored. -/
theorem rrxStoresBodyByte : Obligations.RrxStoresBodyByte :=
  fun _ _ hp hb hfill hlen => exec_rrx_of_receive (rrxReceive_body_of_ne _ hp hb hfill hlen)

/-- Settles O40: the boundary in phase BODY clears the record, and phase LEN follows. -/
theorem rrxEarlyBoundaryDiscards : Obligations.RrxEarlyBoundaryDiscards :=
  fun _ hp => exec_rrx_of_receive (rrxReceive_body_zero _ hp)

/-- Settles O39: the byte is one more boundary, a length of 0, or the mode and the number of bytes to come. -/
theorem rrxTakesLength : Obligations.RrxTakesLength := by
  intro s b hp
  split
  next hb =>
    subst hb
    rw [exec_rrx_of_receive (rrxReceive_boundary _ (.inr hp)), ← hp]
    rfl
  next hb =>
    split
    next hlen => exact exec_rrx_of_receive (rrxReceive_len_bad _ hp hb hlen)
    next hlen => exact exec_rrx_of_receive (rrxReceive_len_of_ne _ hp hb hlen)

/-- Settles O38: the boundary moves the receiver on, and any other byte is unexpected. -/
theorem rrxAwaitsBoundary : Obligations.RrxAwaitsBoundary := by
  intro s b hp
  refine ⟨?_, fun hb => exec_rrx_of_receive (rrxReceive_idle_of_ne _ hp hb)⟩
  rintro rfl
  exact exec_rrx_of_receive (rrxReceive_boundary _ (.inl hp))

/-! ## The frame of `RRX` -/

theorem rrxComplete_buf (free : Nat → Byte) (u : Rrx) : (rrxComplete free u).1.buf = u.buf := by
  rw [(rrxComplete_cases free u).1, Rrx.clear_buf]

/-- `RRX` writes its buffer in phase BODY only, where a non-zero byte comes, and there at `fill` (43_rl_rx R173). -/
theorem rrxReceive_buf {free : Nat → Byte} {b : Byte} {u u' : Rrx} {es : List Emission}
    (h : rrxReceive free b u = .ok (u', es)) :
    u'.buf = u.buf ∨ (u.phase = .body ∧ b ≠ 0 ∧ u'.buf = u.buf.put u.fill.toNat b) := by
  rcases rrxReceive_cases free b u u' es h with ⟨-, -, rfl, -⟩ | ⟨-, -, rfl, -⟩ | ⟨-, -, rfl, -⟩ |
    ⟨-, -, -, rfl, -⟩ | ⟨-, -, -, rfl, -⟩ | ⟨-, -, rfl, -⟩ | ⟨hp, hb, -, -, hc⟩ | ⟨hp, hb, -, -, rfl, -⟩
  · exact .inl rfl
  · exact .inl rfl
  · exact .inl rfl
  · exact .inl rfl
  · exact .inl rfl
  · exact .inl rfl
  · obtain rfl : u' = _ := congrArg Prod.fst hc
    exact .inr ⟨hp, hb, rrxComplete_buf free _⟩
  · exact .inr ⟨hp, hb, rfl⟩

/-- Settles O57: `RRX` writes the record of `rrx` alone, and emits what is from `rrx` alone. -/
theorem rrxFrame : Obligations.RrxFrame := by
  intro s t b h
  obtain ⟨u, es, hr, rfl⟩ := exec_rrx_cases h
  obtain ⟨hfw, hrw, hres⟩ := s.ports.emitAll_of_source_receiver (.inr rfl) (rrxReceive_source hr)
  refine ⟨rfl, rfl, rfl, rfl, rfl, rfl, rfl, hfw, hrw, hres, fun i hi => ?_⟩
  change u.buf.read (s.unwritten .rrx) i = s.rrx.buf.read (s.unwritten .rrx) i
  rcases rrxReceive_buf hr with hbuf | ⟨hp, hb, hbuf⟩
  · rw [hbuf]
  · rw [hbuf, Memory.read_put, if_neg (Ne.symm (hi ⟨hp, hb⟩))]

end Sys2Proof.Machine
end

section
/-! # Run-length decoding (43_rl_rx R176, R177, R179) -/

namespace Sys2Proof.Machine

/-- Settles O46: by the length of what a walk from index 0 gives. -/
theorem decodedPayloadLength : Obligations.DecodedPayloadLength := by
  intro body p hbody h
  rw [rlDecodeFrom_length h]
  exact Nat.sub_add_cancel (List.length_pos_of_ne_nil hbody)

/-! ## One run -/

/-- A run byte is 0, or passes the end of the body, or has its literal bytes and then the later runs after it
(43_rl_rx R176). -/
theorem runPrefix_cases (x : Byte) (tail : List Byte) :
    (x.toNat = 0 ∨ tail.length + 1 < x.toNat) ∨ ∃ seg next, tail = seg ++ next ∧ x.toNat = seg.length + 1 := by
  refine or_iff_not_imp_left.2 fun hbad => ⟨tail.take (x.toNat - 1), tail.drop (x.toNat - 1), ?_, ?_⟩
  · exact (List.take_append_drop _ tail).symm
  · rw [List.length_take]
    omega

theorem rlDecodeFrom_nil (fuel p : Nat) : rlDecodeFrom fuel p [] = .ok [] := by
  cases fuel <;> rfl

theorem rlDecodeFrom_bad {x : Byte} {tail : List Byte} (hbad : x.toNat = 0 ∨ tail.length + 1 < x.toNat)
    (fuel p : Nat) : rlDecodeFrom fuel p (x :: tail) = .error p := by
  cases fuel with
  | zero => rfl
  | succ fuel => simp only [rlDecodeFrom, if_pos hbad]

/-- A run gives its literal bytes, and a 0x00 if it is not the last (43_rl_rx R176). -/
theorem rlDecodeFrom_run {x : Byte} {seg : List Byte} (hx : x.toNat = seg.length + 1) (fuel p : Nat)
    (next : List Byte) :
    rlDecodeFrom (fuel + 1) p (x :: (seg ++ next)) =
      (rlDecodeFrom fuel (p + (seg.length + 1)) next).map (seg ++ (if next = [] then [] else [0x00]) ++ ·) := by
  have hgood : ¬ (seg.length + 1 = 0 ∨ (seg ++ next).length + 1 < seg.length + 1) := by
    rw [List.length_append]
    omega
  simp only [rlDecodeFrom, hx, if_neg hgood, Nat.add_sub_cancel, List.drop_left, List.take_left]

/-! ## The in-place form -/

/-- The shift puts the literal bytes of a run over its run byte; what it leaves at the run's last index is overwritten
(43_rl_rx R177). -/
theorem shiftLeft_run (out : List Byte) (x : Byte) (seg next : List Byte) :
    ∃ z, shiftLeft (out ++ x :: (seg ++ next)) out.length seg.length = out ++ seg ++ z :: next := by
  induction seg using List.reverseRecOn generalizing next with
  | nil => exact ⟨x, by simp [shiftLeft]⟩
  | append_singleton seg y ih =>
    obtain ⟨z, hz⟩ := ih (y :: next)
    refine ⟨y, ?_⟩
    have hget : (out ++ seg ++ z :: y :: next).getD ((out ++ seg).length + 1) 0 = y := by
      rw [List.getD_append_right _ _ _ _ (Nat.le_add_right _ 1), Nat.add_sub_cancel_left]
      rfl
    rw [List.length_append, List.length_singleton, List.append_assoc, List.singleton_append, shiftLeft, hz,
      ← List.length_append, hget]
    simp

/-- The in-place walk at a run byte that the plain walk rejects. -/
theorem rlDecodeInplaceFrom_bad {x : Byte} {tail : List Byte} (hbad : x.toNat = 0 ∨ tail.length + 1 < x.toNat)
    (fuel : Nat) (out : List Byte) :
    rlDecodeInplaceFrom (out.length + (tail.length + 1)) fuel out.length (out ++ x :: tail) = .error out.length := by
  have hp : out.length < out.length + (tail.length + 1) := by omega
  cases fuel with
  | zero => simp only [rlDecodeInplaceFrom, if_pos hp]
  | succ fuel => simp [rlDecodeInplaceFrom, hbad]

/-- The in-place walk at a run leaves the run's literal bytes, a 0x00, and the later runs (43_rl_rx R177). -/
theorem rlDecodeInplaceFrom_run {x : Byte} {seg : List Byte} (hx : x.toNat = seg.length + 1) (fuel : Nat)
    (out next : List Byte) {len : Nat} (hlen : out.length + (seg.length + 1) ≤ len) :
    rlDecodeInplaceFrom len (fuel + 1) out.length (out ++ x :: (seg ++ next)) =
      rlDecodeInplaceFrom len fuel (out.length + (seg.length + 1)) (out ++ seg ++ [0x00] ++ next) := by
  have hp : out.length < len := by omega
  have hgood : ¬ (seg.length + 1 = 0 ∨ len < out.length + (seg.length + 1)) := by omega
  have hget : (out ++ x :: (seg ++ next)).getD out.length 0 = x := by simp
  obtain ⟨z, hz⟩ := shiftLeft_run out x seg next
  have hset : (out ++ seg ++ z :: next).set (out.length + seg.length) 0x00 = out ++ seg ++ [0x00] ++ next := by
    rw [← List.length_append]
    simp
  simp only [rlDecodeInplaceFrom, if_pos hp, hget, hx, if_neg hgood, Nat.add_sub_cancel, hz]
  rw [← Nat.add_assoc, Nat.add_sub_cancel, hset]

theorem rlDecodeInplaceFrom_end (fuel : Nat) (out : List Byte) :
    rlDecodeInplaceFrom out.length fuel out.length out = .ok (out.take (out.length - 1)) := by
  cases fuel <;> simp only [rlDecodeInplaceFrom, Nat.lt_irrefl, if_false]

/-- The in-place walk over a buffer whose runs before index `p` are decoded to `out` gives what they and the rest
decode to; the 0x00 after the last run is cut off (43_rl_rx R177). -/
theorem rlDecodeInplaceFrom_eq (fuel : Nat) (out rest : List Byte) :
    rlDecodeInplaceFrom (out.length + rest.length) fuel out.length (out ++ rest) =
      (rlDecodeFrom fuel out.length rest).map fun d => (out ++ d).take (out.length + rest.length - 1) := by
  induction fuel generalizing out rest with
  | zero =>
    cases rest with
    | nil => simp [rlDecodeInplaceFrom_end, rlDecodeFrom_nil, Except.map]
    | cons x tail => simp [rlDecodeInplaceFrom, rlDecodeFrom, Except.map]
  | succ fuel ih =>
    cases rest with
    | nil => simp [rlDecodeInplaceFrom_end, rlDecodeFrom_nil, Except.map]
    | cons x tail =>
      obtain hbad | ⟨seg, next, rfl, hx⟩ := runPrefix_cases x tail
      · rw [rlDecodeFrom_bad hbad, List.length_cons, rlDecodeInplaceFrom_bad hbad]
        rfl
      · have hout : (out ++ seg ++ [0x00]).length = out.length + (seg.length + 1) := by simp
        have hlen : out.length + (x :: (seg ++ next)).length = (out ++ seg ++ [0x00]).length + next.length := by
          simp only [hout, List.length_cons, List.length_append]
          omega
        rw [rlDecodeFrom_run hx, rlDecodeInplaceFrom_run hx _ _ _ (by omega), hlen, ← hout, ih]
        by_cases hnext : next = []
        · simp [hnext, rlDecodeFrom_nil, Except.map, List.take_append]
        · cases rlDecodeFrom fuel (out ++ seg ++ [0x00]).length next <;> simp [hnext, Except.map]

/-- Settles O45: what the walk from index 0 cuts off stands after the payload. -/
theorem inplaceDecodeEqualsDecode : Obligations.InplaceDecodeEqualsDecode := by
  intro body
  have hwalk := rlDecodeInplaceFrom_eq body.length [] body
  simp only [List.length_nil, Nat.zero_add, List.nil_append] at hwalk
  rw [rlDecodeInplace, hwalk, rlDecode]
  cases h : rlDecodeFrom body.length 0 body with
  | error i => rfl
  | ok d => rw [Except.map, ← rlDecodeFrom_length h, List.take_length]

end Sys2Proof.Machine
end

section
/-! # An encoded packet is received as it was sent (44_rl_tx R214, R215, R217, R218) -/

namespace Sys2Proof.Machine

/-! ## The length/mode byte (30_encoding R79) -/

/-- A bit inside the width is the number's bit. -/
theorem getElem_ofNat {w n i : Nat} (hi : i < w) : (BitVec.ofNat w n)[i] = n.testBit i := by
  rw [BitVec.getElem_eq_testBit_toNat, BitVec.toNat_ofNat, Nat.testBit_mod_two_pow, decide_eq_true hi, Bool.true_and]

theorem modeField_lengthModeByte (m : Mode) {n : Nat} (hn : n < 64) : modeField (lengthModeByte m n) = m := by
  ext i hi
  have hbit : n.testBit (6 + i) = false :=
    Nat.testBit_lt_two_pow (hn.trans_le (Nat.pow_le_pow_right (n := 2) (by decide) (Nat.le_add_right 6 i)))
  have hbyte : 6 + i < 8 := by omega
  simp [modeField, lengthModeByte, hbit, hbyte, getElem_ofNat, BitVec.getLsbD_eq_getElem hi]

theorem lengthField_lengthModeByte (m : Mode) (n : Nat) : lengthField (lengthModeByte m n) = BitVec.ofNat 6 n := by
  ext i hi
  have hbyte : i < 8 := by omega
  simp [lengthField, lengthModeByte, hi, hbyte, getElem_ofNat]

/-! ## The runs of a payload -/

/-- The run byte of a run that fits it is not truncated (44_rl_tx R215). -/
theorem toNat_runPrefix {seg : List Byte} (hseg : seg.length < 255) :
    (BitVec.ofNat 8 (seg.length + 1)).toNat = seg.length + 1 :=
  Nat.mod_eq_of_lt (Nat.succ_lt_succ hseg)

/-- A body is one byte longer than its payload (44_rl_tx R215). -/
theorem rlRuns_length (seg d : List Byte) : (rlRuns seg d).length = seg.length + d.length + 1 := by
  fun_induction rlRuns seg d with
  | case1 seg => rfl
  | case2 seg d ih =>
    rw [List.length_append, ih, rlRun, List.length_cons, List.length_cons, List.length_nil]
    omega
  | case3 seg x d hx ih =>
    rw [ih, List.length_append, List.length_singleton, List.length_cons]
    omega

theorem rlRuns_ne_nil (seg d : List Byte) : rlRuns seg d ≠ [] :=
  List.ne_nil_of_length_eq_add_one (rlRuns_length seg d)

theorem zero_not_mem_rlRun {seg : List Byte} (hseg : (0 : Byte) ∉ seg) (hlen : seg.length < 255) :
    (0 : Byte) ∉ rlRun seg := by
  refine List.not_mem_cons_of_ne_of_not_mem (fun h => ?_) hseg
  have hprefix := toNat_runPrefix hlen
  rw [← h] at hprefix
  cases hprefix

/-- A body holds no 0x00 (44_rl_tx R215). -/
theorem zero_not_mem_rlRuns {seg d : List Byte} (hseg : (0 : Byte) ∉ seg) (hlen : seg.length + d.length < 255) :
    (0 : Byte) ∉ rlRuns seg d := by
  fun_induction rlRuns seg d with
  | case1 seg => exact zero_not_mem_rlRun hseg hlen
  | case2 seg d ih =>
    rw [List.length_cons] at hlen
    exact List.not_mem_append (zero_not_mem_rlRun hseg (by omega))
      (ih List.not_mem_nil (by rw [List.length_nil]; omega))
  | case3 seg x d hx ih =>
    rw [List.length_cons] at hlen
    refine ih (List.not_mem_append hseg ?_) (by rw [List.length_append, List.length_singleton]; omega)
    exact mt List.mem_singleton.1 (Ne.symm hx)

/-- Each run gives its bytes back, and the zero that ended it where it is not the last (44_rl_tx R217). -/
theorem rlDecodeFrom_rlRuns {fuel p : Nat} {seg d : List Byte} (hfuel : d.length < fuel)
    (hlen : seg.length + d.length < 255) : rlDecodeFrom fuel p (rlRuns seg d) = .ok (seg ++ d) := by
  obtain ⟨fuel, rfl⟩ := Nat.exists_eq_succ_of_ne_zero (Nat.ne_zero_of_lt hfuel)
  fun_induction rlRuns seg d generalizing fuel p with
  | case1 seg =>
    have hrun := rlDecodeFrom_run (toNat_runPrefix hlen) fuel p []
    rw [List.append_nil, rlDecodeFrom_nil] at hrun
    exact hrun.trans (by simp [Except.map])
  | case2 seg d ih =>
    rw [List.length_cons] at hfuel hlen
    obtain ⟨fuel, rfl⟩ := Nat.exists_eq_succ_of_ne_zero (show fuel ≠ 0 by omega)
    have hrun := rlDecodeFrom_run (toNat_runPrefix (seg := seg) (by omega)) (fuel + 1) p (rlRuns [] d)
    rw [if_neg (rlRuns_ne_nil [] d), ih (by rw [List.length_nil]; omega) fuel (by omega)] at hrun
    exact hrun.trans (by simp [Except.map])
  | case3 seg x d hx ih =>
    rw [List.length_cons] at hfuel hlen
    rw [ih (by rw [List.length_append, List.length_singleton]; omega) fuel (by omega), List.append_assoc,
      List.singleton_append]

theorem rlDecode_rlRuns {d : List Byte} (hd : d.length < 255) : rlDecode (rlRuns [] d) = .ok d :=
  rlDecodeFrom_rlRuns (by rw [rlRuns_length]; omega) (by simpa using hd)

/-! ## Feeding a packet -/

/-- A run that offers bytes to `RRX` goes on from what the receiver makes of the first one (43_rl_rx R170). -/
theorem runToEnd_rrx_cons {b : Byte} {bs : List Byte} {s : State} {u : Rrx} {es : List Emission}
    (h : rrxReceive (s.unwritten .rrx) b s.rrx = .ok (u, es)) :
    runToEnd (s.offering ((b :: bs).map .rrx)) =
      runToEnd ((((s.accept (offer (bs.map .rrx))).setRrx u).emitAll es).offering (bs.map .rrx)) :=
  runToEnd_offering_cons (congrArg (Except.map _) h)

/-- The rest of a body, fed in phase BODY, delivers what the whole decodes to (43_rl_rx R173, R174). -/
theorem runToEnd_rrx_body {bs d : List Byte} (hbs : bs ≠ []) (hzero : (0 : Byte) ∉ bs) {s : State}
    (hp : s.rrx.phase = .body) (hlen : s.rrx.fill.toNat + bs.length = s.rrx.len.toNat)
    (hdecode : rlDecode (s.rrx.buf.readSeq (s.unwritten .rrx) 0 s.rrx.fill.toNat ++ bs) = .ok d) :
    ∃ t, runToEnd (s.offering (bs.map .rrx)) = .next t ∧ t.rrx.Initial ∧
      t.ports = { s.ports with dlv := s.ports.dlv ++ [.rlPacket s.rrx.mode d] } := by
  induction bs generalizing s with
  | nil => exact absurd rfl hbs
  | cons b bs ih =>
    obtain ⟨hb, hzero⟩ := not_or.1 (mt List.mem_cons.2 hzero)
    rw [List.length_cons] at hlen
    have hfill : s.rrx.fill.toNat < rrxDepth := by
      have hmax : s.rrx.len.toNat < 64 := s.rrx.len.isLt
      rw [rrxDepth]
      omega
    by_cases hend : bs = []
    · subst hend
      have hlast := rrxReceive_body_last (s.unwritten .rrx) hp (Ne.symm hb) hfill hlen
      rw [hdecode] at hlast
      exact ⟨_, (runToEnd_rrx_cons hlast).trans (runToEnd_nil _ rfl), ⟨rfl, rfl, rfl, rfl⟩, rfl⟩
    · have hpos : 0 < bs.length := List.length_pos_of_ne_nil hend
      have hcount : (s.rrx.fill + 1).toNat = s.rrx.fill.toNat + 1 := by
        rw [rrxDepth] at hfill
        bv_omega
      have hne : s.rrx.fill + 1 ≠ s.rrx.len := fun he => by rw [he] at hcount; omega
      rw [runToEnd_rrx_cons (rrxReceive_body_of_ne _ hp (Ne.symm hb) hfill hne)]
      refine ih hend hzero hp ?_ ?_
      · change (s.rrx.fill + 1).toNat + bs.length = s.rrx.len.toNat
        omega
      · change rlDecode ((s.rrx.buf.put s.rrx.fill.toNat b).readSeq (s.unwritten .rrx) 0 (s.rrx.fill + 1).toNat ++
          bs) = .ok d
        rw [hcount, Memory.readSeq_put, List.append_assoc]
        exact hdecode

/-- Settles O52: the boundary and the length/mode byte bring the receiver to the body, which decodes to the payload. -/
theorem packetLoopback : Obligations.PacketLoopback := by
  intro s m d hp hpos hmax
  have hlen : (BitVec.ofNat 6 (d.length + 1)).toNat = d.length + 1 := Nat.mod_eq_of_lt (by omega)
  have hfield : lengthField (lengthModeByte m (d.length + 1)) ≠ 0 := fun h0 => by
    rw [lengthField_lengthModeByte] at h0
    rw [h0] at hlen
    cases hlen
  have hbyte : lengthModeByte m (d.length + 1) ≠ 0 := fun h0 => hfield (by rw [h0]; rfl)
  rw [rlEncode, runToEnd_rrx_cons (rrxReceive_boundary _ hp),
    runToEnd_rrx_cons (rrxReceive_len_of_ne _ rfl hbyte hfield), lengthField_lengthModeByte,
    modeField_lengthModeByte m (by omega)]
  refine runToEnd_rrx_body (rlRuns_ne_nil [] d) (zero_not_mem_rlRuns List.not_mem_nil ?_) rfl ?_ ?_
  · rw [List.length_nil]
    omega
  · rw [rlRuns_length]
    exact hlen.symm ▸ by simp
  · exact rlDecode_rlRuns (by omega)

end Sys2Proof.Machine
end

section
/-! # `RTXB`, `RTXD` and `RTXE` (44_rl_tx R211-R216) -/

namespace Sys2Proof.Machine

/-- `RTXB m` completes with what it makes of the record (44_rl_tx R211). -/
theorem exec_rtxb (m : Mode) (s : State) :
    exec (.rtxb m) s = .next ((s.setRtx (rtxBegin m s.rtx).1).emitAll (rtxBegin m s.rtx).2) := rfl

/-- `RTXD b` completes with what it makes of the record (44_rl_tx R212). -/
theorem exec_rtxd (b : Byte) (s : State) :
    exec (.rtxd b) s = .next ((s.setRtx (rtxData b s.rtx).1).emitAll (rtxData b s.rtx).2) := rfl

/-- `RTXE` completes with what it makes of the record (44_rl_tx R213). -/
theorem exec_rtxe (s : State) :
    exec .rtxe s = .next ((s.setRtx (rtxEnd (s.unwritten .rtx) s.rtx).1).emitAll
      (rtxEnd (s.unwritten .rtx) s.rtx).2) := rfl

/-! ## The checks of `RTXE`, in their order (44_rl_tx R216) -/

section
variable {u : Rtx}

theorem rtxeResult_eq_empty_iff : rtxeResult u = .empty ↔ u.n = 0 := by
  rw [rtxeResult]
  split
  next hn => exact iff_of_true rfl hn
  next hn => split <;> exact iff_of_false nofun hn

theorem rtxeResult_eq_tooLong_iff : rtxeResult u = .tooLong ↔ u.n ≠ 0 ∧ u.overflowed = true := by
  rw [rtxeResult]
  split
  next hn => exact iff_of_false nofun fun h => h.1 hn
  next hn =>
    split
    next hover => exact iff_of_true rfl ⟨hn, hover⟩
    next hover => exact iff_of_false nofun fun h => hover h.2

theorem rtxeResult_eq_ok_iff : rtxeResult u = .ok ↔ u.n ≠ 0 ∧ ¬ u.overflowed = true := by
  rw [rtxeResult]
  split
  next hn => exact iff_of_false nofun fun h => h.1 hn
  next hn =>
    split
    next hover => exact iff_of_false nofun fun h => h.2 hover
    next hover => exact iff_of_true rfl ⟨hn, hover⟩

end

/-! ## What the three operations do -/

/-- Settles O49: by what `RTXE` can do, the result telling which check refused. -/
theorem rtxeEndsPacket : Obligations.RtxeEndsPacket := by
  intro s d rtx refused
  refine ⟨Laws.RowEncoding.rtxe.2, decode_encode .rtxe, ?_⟩
  rw [exec_rtxe]
  obtain ⟨ha, he⟩ | ⟨ha, hr, he⟩ | ⟨ha, r, hcode, hr, he⟩ := rtxEnd_cases (s.unwritten .rtx) s.rtx <;> rw [he]
  · rw [if_pos ha]
    rfl
  · obtain ⟨hn, hover⟩ := rtxeResult_eq_ok_iff.1 hr
    rw [if_neg (by simp [ha]), if_neg hn, if_neg hover, State.emitAll, State.setRtx_ports, Ports.emitAll_map_rw]
    rfl
  · rw [if_neg (by simp [ha])]
    obtain rfl | rfl := hcode
    · rw [if_pos (rtxeResult_eq_empty_iff.1 hr)]
      rfl
    · obtain ⟨hn, hover⟩ := rtxeResult_eq_tooLong_iff.1 hr
      rw [if_neg hn, if_pos hover]
      rfl

/-- Settles O47: `RTXB` emits only where a packet was begun. -/
theorem rtxbBeginsPacket : Obligations.RtxbBeginsPacket := by
  intro s m
  refine ⟨(Laws.RowEncoding.rtxb m).2, decode_encode (.rtxb m), ?_⟩
  rw [exec_rtxb, rtxBegin]
  cases s.rtx.active <;> rfl

/-- Settles O48: by what `RTXD` can do. -/
theorem rtxdAppendsByte : Obligations.RtxdAppendsByte := by
  intro s b
  refine ⟨(Laws.RowEncoding.rtxd b).2, decode_encode (.rtxd b), ?_⟩
  rw [exec_rtxd]
  obtain ⟨ha, he⟩ | ⟨ha, hn, he⟩ | ⟨ha, hn, he⟩ := rtxData_cases b s.rtx <;> rw [he]
  · rw [if_pos ha]
    rfl
  · rw [if_neg (by simp [ha]), if_pos (show s.rtx.n.toNat < 62 from hn)]
    rfl
  · rw [if_neg (by simp [ha]), if_neg (show ¬ s.rtx.n.toNat < 62 from Nat.not_lt.2 hn)]
    rfl

end Sys2Proof.Machine
end

section
/-! # The shape of an encoded packet (44_rl_tx R214, R215, R217) -/

namespace Sys2Proof.Machine

/-- A declared length of six bits is read back whole (30_encoding R79). -/
theorem toNat_lengthField_lengthModeByte (m : Mode) {n : Nat} (hn : n < 64) :
    (lengthField (lengthModeByte m n)).toNat = n := by
  rw [lengthField_lengthModeByte, BitVec.toNat_ofNat, Nat.mod_eq_of_lt hn]

/-- Settles O50: the length field is the body's length, so neither it nor its byte is zero. -/
theorem encodedPacketShape : Obligations.EncodedPacketShape := by
  intro m d hpos hmax
  have hbody : (rlRuns [] d).length = d.length + 1 := by
    rw [rlRuns_length, List.length_nil, Nat.zero_add]
  have hfield : lengthField (lengthModeByte m (d.length + 1)) ≠ 0 := fun h0 => by
    have hlen := toNat_lengthField_lengthModeByte m (n := d.length + 1) (by omega)
    rw [h0] at hlen
    cases hlen
  have hbyte : lengthModeByte m (d.length + 1) ≠ 0 := fun h0 => hfield (by rw [h0]; rfl)
  have hzero : (0 : Byte) ∉ rlRuns [] d :=
    zero_not_mem_rlRuns List.not_mem_nil (by rw [List.length_nil]; omega)
  exact ⟨_, _, rfl, rfl, hbyte, hfield, hbody, fun x hx h0 => hzero (h0 ▸ hx), congrArg (· + 2) hbody⟩

/-- Settles O51: both fields of the length/mode byte are read back, and the body's runs give the payload. -/
theorem runLengthRoundTrip : Obligations.RunLengthRoundTrip := by
  intro m d h body hpos hmax henc
  obtain ⟨rfl, rfl⟩ := List.cons.inj (List.cons.inj henc).2
  refine ⟨?_, modeField_lengthModeByte m (by omega), rlDecode_rlRuns (by omega)⟩
  rw [rlRuns_length, List.length_nil, Nat.zero_add]
  exact toNat_lengthField_lengthModeByte m (by omega)

end Sys2Proof.Machine
end

section
/-! # What the RunLengthPacketizer transmitter leaves (44_rl_tx R211-R213) -/

namespace Sys2Proof.Machine

/-! ## The emissions -/

theorem rtxBegin_emits_diag (m : Mode) (u : Rtx) : ∃ ds : List Diag, (rtxBegin m u).2 = ds.map .diag := by
  cases ha : u.active
  · exact ⟨[], by simp [rtxBegin, ha]⟩
  · exact ⟨[⟨.txSeq, rtxbSeqInfo m⟩], by simp [rtxBegin, ha, diag]⟩

theorem rtxData_emits_diag (b : Byte) (u : Rtx) : ∃ ds : List Diag, (rtxData b u).2 = ds.map .diag := by
  obtain ⟨-, he⟩ | ⟨-, -, he⟩ | ⟨-, -, he⟩ := rtxData_cases b u <;> rw [he]
  · exact ⟨[⟨.txSeq, 0x70⟩], rfl⟩
  · exact ⟨[], rfl⟩
  · exact ⟨[], rfl⟩

/-! ## The record -/

theorem rtxData_active_mode (b : Byte) (u : Rtx) :
    (rtxData b u).1.active = u.active ∧ (rtxData b u).1.mode = u.mode := by
  obtain ⟨-, he⟩ | ⟨-, -, he⟩ | ⟨-, -, he⟩ := rtxData_cases b u <;> rw [he] <;> exact ⟨rfl, rfl⟩

/-- `RTXD` writes its buffer only where a packet is begun and not full, and there at `n` (44_rl_tx R212). -/
theorem rtxData_buf (b : Byte) (u : Rtx) :
    (rtxData b u).1.buf = u.buf ∨
    (u.active = true ∧ u.n.toNat < rtxDepth ∧ (rtxData b u).1.buf = u.buf.put u.n.toNat b) := by
  obtain ⟨-, he⟩ | ⟨ha, hn, he⟩ | ⟨-, -, he⟩ := rtxData_cases b u <;> rw [he]
  · exact .inl rfl
  · exact .inr ⟨ha, hn, rfl⟩
  · exact .inl rfl

theorem rtxEnd_buf (free : Nat → Byte) (u : Rtx) : (rtxEnd free u).1.buf = u.buf := by
  obtain ⟨-, he⟩ | ⟨-, -, he⟩ | ⟨-, r, -, -, he⟩ := rtxEnd_cases free u <;> rw [he] <;> rfl

/-! ## The frame -/

/-- What the three operations have in common: they write the record of `rtx` alone, and emit what is from `rtx`. -/
theorem exec_rtx_cases {s t : State} {i : Instr} (hi : ∃ m b, i = .rtxb m ∨ i = .rtxd b ∨ i = .rtxe)
    (h : exec i s = .next t) :
    ∃ u es, t = (s.setRtx u).emitAll es ∧ (∀ e ∈ es, e.source = some .rtx) ∧
      (i ≠ .rtxe → ∃ ds : List Diag, es = ds.map .diag) ∧
      (∀ b, i = .rtxd b → u.active = s.rtx.active ∧ u.mode = s.rtx.mode) ∧
      (u.buf = s.rtx.buf ∨ ∃ b, i = .rtxd b ∧ s.rtx.active = true ∧ s.rtx.n.toNat < rtxDepth ∧
        u.buf = s.rtx.buf.put s.rtx.n.toNat b) := by
  obtain ⟨m, b, rfl | rfl | rfl⟩ := hi <;> obtain rfl := Host.Outcome.next.inj h
  · exact ⟨_, _, rfl, rtxBegin_source m s.rtx, fun _ => rtxBegin_emits_diag m s.rtx, nofun, .inl rfl⟩
  · exact ⟨_, _, rfl, rtxData_source b s.rtx, fun _ => rtxData_emits_diag b s.rtx,
      fun _ _ => rtxData_active_mode b s.rtx, (rtxData_buf b s.rtx).imp_right fun hput => ⟨b, rfl, hput⟩⟩
  · exact ⟨_, _, rfl, rtxEnd_source _ s.rtx, fun hne => absurd rfl hne, nofun, .inl (rtxEnd_buf _ s.rtx)⟩

/-- Settles O59: `rtx` is the only record written, and what is emitted is from `rtx`. -/
theorem rtxFrame : Obligations.RtxFrame := by
  intro s t i hi h
  obtain ⟨u, es, rfl, hsrc, hdiag, hkeep, hbuf⟩ := exec_rtx_cases hi h
  have hftx : (s.ports.emitAll es).ofUnit .ftx = s.ports.ofUnit .ftx :=
    s.ports.ofUnit_emitAll_of_source_ne .ftx es fun e he => by rw [hsrc e he]; decide
  have hfw : (s.ports.emitAll es).fw = s.ports.fw := by
    simpa only [Ports.ofUnit, if_true] using congrArg Ports.fw hftx
  have hdlv : (s.ports.emitAll es).dlv = s.ports.dlv := s.ports.emitAll_dlv_of_source_transmitter (.inr rfl) hsrc
  refine ⟨rfl, rfl, rfl, rfl, rfl, rfl, rfl, hfw, hdlv, fun hne => ?_, hkeep, fun j hj => ?_⟩
  · obtain ⟨ds, rfl⟩ := hdiag hne
    rw [State.emitAll_ports, State.setRtx_ports, Ports.emitAll_map_diag]
    exact ⟨rfl, rfl⟩
  · change u.buf.read (s.unwritten .rtx) j = s.rtx.buf.read (s.unwritten .rtx) j
    obtain hsame | ⟨b, rfl, ha, hn, hput⟩ := hbuf
    · rw [hsame]
    · rw [hput, Memory.read_put, if_neg (Ne.symm (hj b rfl ha hn))]

end Sys2Proof.Machine
end

section
/-! # The control operations, and the block at rest (45_control R240, R242; 70_reset R297) -/

namespace Sys2Proof.Machine

/-! ## The operations -/

theorem exec_nop (s : State) : exec .nop s = .next s := rfl

theorem exec_clr (t : UnitMask) (s : State) : exec (.clr t) s = .next (s.clearUnits t) := rfl

/-- A mask that selects no unit clears none. -/
theorem State.clearUnits_zero (s : State) : s.clearUnits 0 = s := rfl

/-- `NOP` leaves what `CLR` with the empty mask leaves, so both operations clear the units of their mask. -/
theorem exec_control_eq_clearUnits {s t : State} {i : Instr} {mask : UnitMask}
    (hi : (i = .nop ∧ mask = 0) ∨ i = .clr mask) (h : exec i s = .next t) : t = s.clearUnits mask := by
  obtain ⟨rfl, rfl⟩ | rfl := hi
  · rw [exec_nop] at h
    rw [State.clearUnits_zero, Host.Outcome.next.inj h]
  · rw [exec_clr] at h
    exact (Host.Outcome.next.inj h).symm

/-- No clear writes a buffer (10_state R38). -/
theorem State.clearUnits_buf (s : State) (t : UnitMask) :
    (s.clearUnits t).frx.buf = s.frx.buf ∧ (s.clearUnits t).ftx.buf = s.ftx.buf ∧
    (s.clearUnits t).rrx.buf = s.rrx.buf ∧ (s.clearUnits t).rtx.buf = s.rtx.buf := by
  refine ⟨?_, ?_, ?_, ?_⟩
  · rw [State.clearUnits_frx, apply_ite Frx.buf, Frx.clear_buf, ite_self]
  · rw [State.clearUnits_ftx, apply_ite Ftx.buf, Ftx.clear_buf, ite_self]
  · rw [State.clearUnits_rrx, apply_ite Rrx.buf, Rrx.clear_buf, ite_self]
  · rw [State.clearUnits_rtx, apply_ite Rtx.buf, Rtx.clear_buf, ite_self]

/-- Settles O60: both operations clear the units of their mask, which leaves the record of every other unit, and every
buffer. -/
theorem controlFrame : Obligations.ControlFrame := by
  intro s t i mask hi h
  obtain rfl := exec_control_eq_clearUnits hi h
  have hkeep {unit : UnitId} (hsel : maskSelects mask unit = false) : State.SameRecord unit (s.clearUnits mask) s :=
    State.sameRecord_clearUnits hsel s
  have hfree (unit : UnitId) : (s.clearUnits mask).unwritten unit = s.unwritten unit := rfl
  obtain ⟨hfrx, hftx, hrrx, hrtx⟩ := s.clearUnits_buf mask
  refine ⟨rfl, rfl, rfl, rfl, rfl, hkeep, hkeep, hkeep, hkeep, fun j => ?_⟩
  rw [hfrx, hftx, hrrx, hrtx, hfree, hfree, hfree, hfree]
  exact ⟨rfl, rfl, rfl, rfl⟩

/-- Settles O54: the word is the operation's encoding, and each clear writes the initial values. -/
theorem clrClearsSelectedUnits : Obligations.ClrClearsSelectedUnits := by
  intro s t
  exact ⟨(Laws.RowEncoding.clr t).2, decode_encode (.clr t), exec_clr t s⟩

/-! ## The words beside `NOP` -/

/-- A row selects only words with its own value of `op` (30_encoding R73). -/
theorem op_eq_of_selected {r : OpRow} {w : Word} (hr : r ∈ opRows) (hsel : w &&& r.mask = r.pattern) :
    r.pattern.extractLsb' 12 4 = w.extractLsb' 12 4 := by
  rw [← hsel, BitVec.extractLsb'_and, (opRows_fix_op r hr).1, BitVec.and_allOnes]

/-- The row of `NOP` is the only one whose `op` is 0 (30_encoding R73). -/
theorem eq_nop_row_of_op_zero : ∀ r ∈ opRows, r.pattern.extractLsb' 12 4 = 0 → r = Mnemonic.nop.row := by decide

/-- With `op` 0, no row selects a word other than 0x0000 (45_control R240). -/
theorem not_selected_of_op_zero {w : Word} (hop : w.extractLsb' 12 4 = 0) (hw : w ≠ 0) :
    ∀ r ∈ opRows, w &&& r.mask ≠ r.pattern := by
  intro r hr hsel
  obtain rfl := eq_nop_row_of_op_zero r hr ((op_eq_of_selected hr hsel).trans hop)
  exact hw (BitVec.and_allOnes.symm.trans hsel)

theorem op_zero_of_le {w : Word} (hw : w.toNat ≤ 0x0FFF) : w.extractLsb' 12 4 = 0 := by
  refine BitVec.eq_of_toNat_eq ?_
  rw [BitVec.extractLsb'_toNat, Nat.shiftRight_eq_div_pow, Nat.div_eq_of_lt (by omega)]
  rfl

/-- Settles O53: no row selects a word of `op` 0 but the word of `NOP`, whose effect is the state it is given. -/
theorem nopDoesNothing : Obligations.NopDoesNothing := by
  refine ⟨Laws.RowEncoding.nop.2, decode_encode .nop, fun w hpos hle => ?_, exec_nop⟩
  have hw : w ≠ 0 := by
    rintro rfl
    exact absurd hpos (by decide)
  exact decode_of_not_selected (not_selected_of_op_zero (op_zero_of_le hle) hw)

/-! ## The block at rest -/

theorem step_of_input_nil {s : State} (hi : s.input = []) : step s = .next s := by
  simp only [step, hi]

/-- Settles O9, by induction on the number of steps: each one holds the state. -/
theorem stateHeldWithoutAWord : Obligations.StateHeldWithoutAWord := by
  intro s k hi
  induction k with
  | zero => rfl
  | succ k ih =>
    have hstep : Sys2Proof.core.step s = .next s := step_of_input_nil hi
    simp only [Host.Core.run, hstep, ih]

end Sys2Proof.Machine
end

section
/-! # The diagnostics of a step (60_exceptions R263)

Every operation emits at most one value, except the two that end a frame or a packet, whose values hold at most one
diagnostic. -/

namespace Sys2Proof.Machine

/-! ## Counting diagnostics -/

/-- How many of the values go to `DIAG`. -/
def diagCount (es : List Emission) : Nat := (es.filterMap Emission.onDiag).length

theorem Ports.emitAll_diag_length (p : Ports) (es : List Emission) :
    (p.emitAll es).diag.length = p.diag.length + diagCount es := by
  rw [Ports.emitAll_diag, List.length_append, diagCount]

theorem diagCount_le_length (es : List Emission) : diagCount es ≤ es.length := List.length_filterMap_le _ es

/-- A word that is cut short emits no more diagnostics than the whole word (70_reset R294). -/
theorem diagCount_le_of_prefix {es fs : List Emission} (h : es <+: fs) : diagCount es ≤ diagCount fs :=
  (h.sublist.filterMap _).length_le

/-- The wire bytes and the result of a frame that is sent hold no diagnostic (42_framer_tx R143). -/
theorem diagCount_fw_res (l : List Byte) (r : Res) : diagCount (l.map .fw ++ [.res r]) = 0 := by
  simp [diagCount, Emission.onDiag]

/-- The wire bytes and the result of a packet that is sent hold no diagnostic (44_rl_tx R213). -/
theorem diagCount_rw_res (l : List Byte) (r : Res) : diagCount (l.map .rw ++ [.res r]) = 0 := by
  simp [diagCount, Emission.onDiag]

/-- A failed end reports one diagnostic and one result (42_framer_tx R143, 44_rl_tx R213). -/
theorem diagCount_diag_res (tag : DiagTag) (info : Byte) (r : Res) : diagCount [diag tag info, .res r] = 1 := rfl

/-! ## The operations that emit at most one value -/

theorem frxComplete_length (free : Nat → Byte) (u : Frx) : (frxComplete free u).2.length = 1 := by
  obtain ⟨-, ⟨_, -, he⟩ | ⟨_, -, he⟩ | ⟨_, -, he⟩⟩ := frxComplete_cases free u <;> rw [he] <;> rfl

theorem rrxComplete_length (free : Nat → Byte) (u : Rrx) : (rrxComplete free u).2.length = 1 := by
  obtain ⟨-, ⟨_, -, he⟩ | ⟨_, -, he⟩⟩ := rrxComplete_cases free u <;> rw [he] <;> rfl

theorem frxReceive_length_le_one {m : Nat} {free : Nat → Byte} {b : Byte} {u u' : Frx} {es : List Emission}
    (h : frxReceive m free b u = .ok (u', es)) : es.length ≤ 1 := by
  rcases frxReceive_cases m free b u u' es h with ⟨-, -, -, rfl⟩ | ⟨-, -, -, rfl⟩ | ⟨-, -, rfl⟩ | ⟨-, -, -, rfl⟩ |
    ⟨-, -, hc⟩ | ⟨-, -, -, -, rfl⟩ | ⟨-, -, -, hc⟩ | ⟨-, -, -, -, rfl⟩
  · exact Nat.zero_le 1
  · exact Nat.le_refl 1
  · exact Nat.zero_le 1
  · exact Nat.le_refl 1
  · obtain rfl : es = _ := congrArg Prod.snd hc
    exact (frxComplete_length free _).le
  · exact Nat.zero_le 1
  · obtain rfl : es = _ := congrArg Prod.snd hc
    exact (frxComplete_length free _).le
  · exact Nat.zero_le 1

theorem rrxReceive_length_le_one {free : Nat → Byte} {b : Byte} {u u' : Rrx} {es : List Emission}
    (h : rrxReceive free b u = .ok (u', es)) : es.length ≤ 1 := by
  rcases rrxReceive_cases free b u u' es h with ⟨-, -, -, rfl⟩ | ⟨-, -, -, rfl⟩ | ⟨-, -, -, rfl⟩ |
    ⟨-, -, -, -, rfl⟩ | ⟨-, -, -, -, rfl⟩ | ⟨-, -, -, rfl⟩ | ⟨-, -, -, -, hc⟩ | ⟨-, -, -, -, -, rfl⟩
  · exact Nat.zero_le 1
  · exact Nat.le_refl 1
  · exact Nat.zero_le 1
  · exact Nat.le_refl 1
  · exact Nat.zero_le 1
  · exact Nat.le_refl 1
  · obtain rfl : es = _ := congrArg Prod.snd hc
    exact (rrxComplete_length free _).le
  · exact Nat.zero_le 1

theorem ftxBegin_length_le_one (c : Byte) (u : Ftx) : (ftxBegin c u).2.length ≤ 1 := by
  cases ha : u.active <;> simp [ftxBegin, ha]

theorem rtxBegin_length_le_one (m : Mode) (u : Rtx) : (rtxBegin m u).2.length ≤ 1 := by
  cases ha : u.active <;> simp [rtxBegin, ha]

theorem ftxData_length_le_one (m : Nat) (b : Byte) (u : Ftx) : (ftxData m b u).2.length ≤ 1 := by
  obtain ⟨-, he⟩ | ⟨-, -, he⟩ | ⟨-, -, he⟩ := ftxData_cases m b u <;> simp [he]

theorem rtxData_length_le_one (b : Byte) (u : Rtx) : (rtxData b u).2.length ≤ 1 := by
  obtain ⟨-, he⟩ | ⟨-, -, he⟩ | ⟨-, -, he⟩ := rtxData_cases b u <;> simp [he]

/-! ## At most one diagnostic -/

/-- Ending a frame reports a diagnostic only when nothing is sent (42_framer_tx R143). -/
theorem ftxEnd_diagCount_le_one (free : Nat → Byte) (u : Ftx) : diagCount (ftxEnd free u).2 ≤ 1 := by
  obtain ⟨-, he⟩ | ⟨-, -, he⟩ | ⟨-, r, -, -, -, he⟩ := ftxEnd_cases free u <;> rw [he]
  · exact (diagCount_diag_res _ _ _).le
  · exact (diagCount_fw_res _ _).trans_le (Nat.zero_le 1)
  · exact (diagCount_diag_res _ _ _).le

/-- Ending a packet reports a diagnostic only when nothing is sent (44_rl_tx R213). -/
theorem rtxEnd_diagCount_le_one (free : Nat → Byte) (u : Rtx) : diagCount (rtxEnd free u).2 ≤ 1 := by
  obtain ⟨-, he⟩ | ⟨-, -, he⟩ | ⟨-, r, -, -, he⟩ := rtxEnd_cases free u <;> rw [he]
  · exact (diagCount_diag_res _ _ _).le
  · exact (diagCount_rw_res _ _).trans_le (Nat.zero_le 1)
  · exact (diagCount_diag_res _ _ _).le

theorem instrEffect_diagCount_le_one {i : Instr} {s u : State} {es : List Emission}
    (h : instrEffect i s = .ok (u, es)) : diagCount es ≤ 1 := by
  have hshort {fs : List Emission} (hfs : fs.length ≤ 1) : diagCount fs ≤ 1 := (diagCount_le_length fs).trans hfs
  rcases instrEffect_ok i s u es h with ⟨-, -, rfl⟩ | ⟨b, r, -, hr, -⟩ | ⟨b, r, -, hr, -⟩ | ⟨b, -, -, rfl⟩ |
    ⟨b, -, -, rfl⟩ | ⟨-, -, rfl⟩ | ⟨m, -, -, rfl⟩ | ⟨b, -, -, rfl⟩ | ⟨-, -, rfl⟩ | ⟨t, -, -, rfl⟩
  · exact Nat.zero_le 1
  · exact hshort (frxReceive_length_le_one hr)
  · exact hshort (rrxReceive_length_le_one hr)
  · exact hshort (ftxBegin_length_le_one _ _)
  · exact hshort (ftxData_length_le_one _ _ _)
  · exact ftxEnd_diagCount_le_one _ _
  · exact hshort (rtxBegin_length_le_one _ _)
  · exact hshort (rtxData_length_le_one _ _)
  · exact rtxEnd_diagCount_le_one _ _
  · exact Nat.zero_le 1

/-- An illegal word, too, reports one diagnostic (45_control R244). -/
theorem decodedEffect_diagCount_le_one {d : Decoded} {s u : State} {es : List Emission}
    (h : decodedEffect d s = .ok (u, es)) : diagCount es ≤ 1 := by
  cases d with
  | op i => exact instrEffect_diagCount_le_one h
  | illegal info =>
    obtain ⟨-, rfl⟩ := Prod.mk.inj (Except.ok.inj h)
    exact Nat.le_refl 1

/-- Settles O18: a step adds some first values of one word's output, which holds at most one diagnostic. -/
theorem atMostOneDiagnosticPerStep : Obligations.AtMostOneDiagnosticPerStep := by
  intro s t h
  obtain ⟨es, hports, hes⟩ := step_emits h
  have hcount : diagCount es ≤ 1 := by
    rcases hes with rfl | ⟨w, rest, u, fs, he, hpre⟩
    · exact Nat.zero_le 1
    · exact (diagCount_le_of_prefix hpre).trans (decodedEffect_diagCount_le_one he)
  calc t.ports.diag.length
      = s.ports.diag.length + diagCount es := by rw [hports, Ports.emitAll_diag_length]
    _ ≤ s.ports.diag.length + 1 := Nat.add_le_add_left hcount _

end Sys2Proof.Machine
end

section
/-! # The reset input, and how many values an operation emits (70_reset R290, R291, R294, R299) -/

namespace Sys2Proof.Machine

/-! ## The reset input -/

theorem step_of_input_reset {s : State} {rest : List InputEvent} (hi : s.input = .reset :: rest) :
    step s = .next { s.assertReset with input := rest } := by
  simp only [step, hi, resetBetween]

/-- Settles O11: the step leaves the reset state with the rest of the input, and that state lists no buffer cell. -/
theorem resetInputClearsUnits : Obligations.ResetInputClearsUnits := by
  intro s rest hi
  exact ⟨_, step_of_input_reset hi, s.assertReset_unitsInitial, rfl, rfl, rfl, rfl, fun _ => ⟨rfl, rfl, rfl, rfl⟩⟩

/-- Settles O12: from the invariants the word has an effect, and the step cuts its values at the free length, or at
their end where that length is past it (log entry 4). -/
theorem resetCutsOutputShort : Obligations.ResetCutsOutputShort := by
  intro s w rest hi hs
  obtain ⟨u, es, he⟩ := decodedEffect_ok_of_inv (s := s.accept rest) hs (decode w)
  have hstep : step s = .next ((s.accept rest).emitAll (es.take (Config.cutLength s.resets))).assertReset := by
    rw [step_of_input_resetDuring hi, he]
    rfl
  have hcut : es.take (Config.cutLength s.resets) = es.take (min (Config.cutLength s.resets) es.length) :=
    List.take_eq_take_min
  exact ⟨_, u, es, _, hstep, he, Nat.min_le_right _ _, congrArg s.ports.emitAll hcut,
    State.assertReset_unitsInitial _, rfl⟩

/-! ## The operations that end a frame or a packet -/

/-- A frame is its payload's stuffed form after three bytes (42_framer_tx R146). -/
theorem frame_length (c : Byte) (d : List Byte) : (frame c d).length = slen d + 3 := rfl

/-- A packet is its payload's runs after two bytes (44_rl_tx R214). -/
theorem rlEncode_length (m : Mode) (d : List Byte) : (rlEncode m d).length = d.length + 3 := by
  rw [rlEncode, List.length_cons, List.length_cons, rlRuns_length, List.length_nil, Nat.zero_add]

/-- The last check of `FTXE` bounds the stuffed length (42_framer_tx R143). -/
theorem slen_le_of_ftxeResult_ok {u : Ftx} {d : List Byte} (h : ftxeResult u d = .ok) : slen d ≤ 255 := by
  by_contra hlen
  simp only [ftxeResult, if_pos (Nat.lt_of_not_le hlen)] at h
  split_ifs at h

/-- A frame that is sent is 3 bytes and a stuffed payload of at most 255, followed by the result (70_reset R299). -/
theorem ftxEnd_length_le (free : Nat → Byte) (u : Ftx) : (ftxEnd free u).2.length ≤ 259 := by
  obtain ⟨-, he⟩ | ⟨-, hok, he⟩ | ⟨-, r, -, -, -, he⟩ := ftxEnd_cases free u <;> rw [he]
  · exact (by decide : 2 ≤ 259)
  · have hslen := slen_le_of_ftxeResult_ok hok
    rw [List.length_append, List.length_map, frame_length, List.length_singleton]
    omega
  · exact (by decide : 2 ≤ 259)

/-- A packet that is sent is 3 bytes more than its payload, which the buffer bounds, followed by the result
(70_reset R299). -/
theorem rtxEnd_length_le (free : Nat → Byte) {u : Rtx} (hn : u.n.toNat ≤ rtxDepth) :
    (rtxEnd free u).2.length ≤ rtxDepth + 4 := by
  obtain ⟨-, he⟩ | ⟨-, -, he⟩ | ⟨-, r, -, -, he⟩ := rtxEnd_cases free u <;> rw [he]
  · exact (by decide : 2 ≤ rtxDepth + 4)
  · rw [List.length_append, List.length_map, rlEncode_length, Memory.readSeq_length, List.length_singleton]
    omega
  · exact (by decide : 2 ≤ rtxDepth + 4)

/-- Settles O19: by what the operation's effect can be, with the bound of its unit's operation. -/
theorem outputCountsAreBounded : Obligations.OutputCountsAreBounded := by
  intro i s u es hs h
  obtain ⟨-, -, -, -, -, hn, -, -, -⟩ := hs
  rcases instrEffect_ok i s u es h with ⟨rfl, -, rfl⟩ | ⟨b, r, rfl, hr, -⟩ | ⟨b, r, rfl, hr, -⟩ | ⟨b, rfl, -, rfl⟩ |
    ⟨b, rfl, -, rfl⟩ | ⟨rfl, -, rfl⟩ | ⟨m, rfl, -, rfl⟩ | ⟨b, rfl, -, rfl⟩ | ⟨rfl, -, rfl⟩ | ⟨t, rfl, -, rfl⟩
  · exact Nat.zero_le 1
  · exact frxReceive_length_le_one hr
  · exact rrxReceive_length_le_one hr
  · exact ftxBegin_length_le_one _ _
  · exact ftxData_length_le_one _ _ _
  · exact ftxEnd_length_le _ _
  · exact rtxBegin_length_le_one _ _
  · exact rtxData_length_le_one _ _
  · exact rtxEnd_length_le _ hn
  · exact Nat.zero_le 1

end Sys2Proof.Machine
end
